-- ==== Sys2Proof/Config.lean ====
section
/-! DEFINITION. What the spec leaves to the implementation (00_scope R8): the entry offset and the open cursor width. -/

namespace Sys2Proof

/-- `START`, the offset of the first byte decoded after reset (00_scope R8, decision D4). -/
def Config.start : Nat := 0

/-- `POS_WIDTH`, the width of the cursor in a build: OPEN in the spec (00_scope R8, decision D3), so it has no body here.
The model's `pos` is an unbounded natural number; a build requires `2 ^ POS_WIDTH > LEN` (DEDUCED, log entry 6). -/
opaque Config.posWidth : Nat

/-- The longest instruction, in bytes (30_encoding R40, R47). -/
def Config.maxLength : Nat := 6

end Sys2Proof
end

