-- ==== Sys2Proof/Word.lean ====
section
/-! DEFINITION. The words DEC handles: the byte, the 16-bit word, and the 3-bit register or base index (00_scope R7, R9). -/

namespace Sys2Proof

/-- A byte: 8 bits, bit 7 most significant (00_scope R7, R9). -/
abbrev Byte := BitVec 8

/-- A 16-bit quantity: direct address, 16-bit displacement, immediate slot (00_scope R7). -/
abbrev Word := BitVec 16

/-- A 3-bit field: a register index, or the `rm` key of the base table (00_scope R7). -/
abbrev Index := BitVec 3

end Sys2Proof
end

