-- ==== Sys2Proof/Syntax.lean ====
section
/-! DEFINITION. The 29 instruction forms of 30_encoding R44, one constructor per row of the opcode table, with the fields each
encoding carries (30_encoding R41, R42, R48). -/

namespace Sys2Proof

/-- The width flag `w` (30_encoding R41): `narrow` is w = 0, `wide` is w = 1. -/
inductive Width where
  | narrow
  | wide
  deriving DecidableEq, Repr

/-- The direction flag `d` of families 1 and 5 (30_encoding R41): `toRm` is d = 0 (the register-or-memory operand is the
destination), `toReg` is d = 1 (the `reg` operand is the destination). -/
inductive Direction where
  | toRm
  | toReg
  deriving DecidableEq, Repr

/-- What `mod`, `rm` and the displacement bytes encode together (30_encoding R50 to R58). -/
inductive RmField where
  /-- mod = 11: a register. -/
  | reg (idx : Index)
  /-- mod = 00, rm other than 110: memory, no displacement. -/
  | mem (rm : Index)
  /-- mod = 00, rm = 110: a 16-bit direct address. -/
  | direct (addr : Word)
  /-- mod = 01: memory and an 8-bit displacement. -/
  | memDisp8 (rm : Index) (disp : Byte)
  /-- mod = 10: memory and a 16-bit displacement. -/
  | memDisp16 (rm : Index) (disp : Word)
  deriving DecidableEq, Repr

/-- The immediate bytes of an instruction: one, or two combined (30_encoding R65). -/
inductive ImmField where
  | one (b : Byte)
  | two (v : Word)
  deriving DecidableEq, Repr

/-- An instruction: one constructor per row of the opcode table (30_encoding R44). Each carries every bit of its encoding
that its family does not fix, the unexamined `reg` bits of family 2 among them (DEDUCED, log entry 7). -/
inductive Instr where
  /-- MOV_RM_REG (40_mov R80). -/
  | movRmReg (d : Direction) (w : Width) (reg : Index) (rm : RmField)
  /-- MOV_RM_IMM (40_mov R81); `unused` is the `reg` field of the addressing byte, which DEC does not examine. -/
  | movRmImm (w : Width) (unused : Index) (rm : RmField) (imm : ImmField)
  /-- MOV_REG_IMM (40_mov R82). -/
  | movRegImm (w : Width) (reg : Index) (imm : ImmField)
  /-- MOV_ACC_MEM (40_mov R83). -/
  | movAccMem (w : Width) (addr : Word)
  /-- MOV_MEM_ACC (40_mov R84). -/
  | movMemAcc (w : Width) (addr : Word)
  /-- ADD_RM_REG (41_arith R85). -/
  | addRmReg (d : Direction) (w : Width) (reg : Index) (rm : RmField)
  /-- SUB_RM_REG (41_arith R86). -/
  | subRmReg (d : Direction) (w : Width) (reg : Index) (rm : RmField)
  /-- CMP_RM_REG (41_arith R87). -/
  | cmpRmReg (d : Direction) (w : Width) (reg : Index) (rm : RmField)
  /-- ADD_RM_IMM (41_arith R88); `sgn` is the flag `s`. -/
  | addRmImm (sgn : Bool) (w : Width) (rm : RmField) (imm : ImmField)
  /-- SUB_RM_IMM (41_arith R89). -/
  | subRmImm (sgn : Bool) (w : Width) (rm : RmField) (imm : ImmField)
  /-- CMP_RM_IMM (41_arith R90). -/
  | cmpRmImm (sgn : Bool) (w : Width) (rm : RmField) (imm : ImmField)
  /-- ADD_ACC_IMM (41_arith R91). -/
  | addAccImm (w : Width) (imm : ImmField)
  /-- SUB_ACC_IMM (41_arith R92). -/
  | subAccImm (w : Width) (imm : ImmField)
  /-- CMP_ACC_IMM (41_arith R93). -/
  | cmpAccImm (w : Width) (imm : ImmField)
  /-- JE (42_jcc R95); `rel` is the raw displacement byte, here and in every jump. -/
  | je (rel : Byte)
  /-- JL (42_jcc R96). -/
  | jl (rel : Byte)
  /-- JLE (42_jcc R97). -/
  | jle (rel : Byte)
  /-- JB (42_jcc R98). -/
  | jb (rel : Byte)
  /-- JBE (42_jcc R99). -/
  | jbe (rel : Byte)
  /-- JP (42_jcc R100). -/
  | jp (rel : Byte)
  /-- JO (42_jcc R101). -/
  | jo (rel : Byte)
  /-- JS (42_jcc R102). -/
  | js (rel : Byte)
  /-- JNE (42_jcc R103). -/
  | jne (rel : Byte)
  /-- JNL (42_jcc R104). -/
  | jnl (rel : Byte)
  /-- JNLE (42_jcc R105). -/
  | jnle (rel : Byte)
  /-- JNB (42_jcc R106). -/
  | jnb (rel : Byte)
  /-- JNBE (42_jcc R107). -/
  | jnbe (rel : Byte)
  /-- JNP (42_jcc R108). -/
  | jnp (rel : Byte)
  /-- JNO (42_jcc R109). -/
  | jno (rel : Byte)
  deriving DecidableEq, Repr

end Sys2Proof
end

