-- ==== Sys2Proof/Machine/Flags.lean ====
section
/-! DEFINITION. The flags DEC computes. It has no status flags and no condition codes (10_state R25); what it computes are the
control flags of a decode: how many immediate bytes are read, the explicit-size tag and the sign-extension flag. -/

namespace Sys2Proof.Machine

/-- Families 2, 3 and 7: two immediate bytes iff `w = 1` (30_encoding R60). -/
def twoByWidth (w : Width) : Bool :=
  match w with
  | .wide => true
  | .narrow => false

/-- Family 6: two immediate bytes iff `sw = 01` (30_encoding R61). -/
def twoBySw (sgn : Bool) (w : Width) : Bool :=
  !sgn && twoByWidth w

/-- `Imm.sx` of family 6: set iff `sw = 11` (30_encoding R64). -/
def sxBySw (sgn : Bool) (w : Width) : Bool :=
  sgn && twoByWidth w

/-- `Imm.explicit` of families 2 and 6: `mod != 11`, so a direct destination counts as memory (30_encoding R63). -/
def explicitTag (rm : RmField) : Bool :=
  match rm with
  | .reg _ => false
  | .mem _ => true
  | .direct _ => true
  | .memDisp8 _ _ => true
  | .memDisp16 _ _ => true

end Sys2Proof.Machine
end

