-- ==== Sys2Proof/WellFormed.lean ====
section
/-! DEFINITION. Which terms of Instr stand for bytes DEC accepts: `mem 110` does not exist (30_encoding R54), and the number of
immediate bytes is the one the control bits fix (30_encoding R60, R61). -/

namespace Sys2Proof

/-- The register-or-memory field is one that `mod` and `rm` can encode: `mod = 00, rm = 110` is the direct address, never a
base expression (30_encoding R54). -/
def RmField.wellFormed (f : RmField) : Bool :=
  match f with
  | .mem rm => rm != 6
  | .reg _ => true
  | .direct _ => true
  | .memDisp8 _ _ => true
  | .memDisp16 _ _ => true

/-- The immediate has two bytes exactly when the control bits say so (30_encoding R65). -/
def ImmField.matches (two : Bool) (imm : ImmField) : Bool :=
  match imm with
  | .one _ => !two
  | .two _ => two

/-- The term is an instruction that some bytes encode. -/
def Instr.wellFormed (i : Instr) : Bool :=
  match i with
  | .movRmReg _ _ _ rm => rm.wellFormed
  | .movRmImm w _ rm imm => rm.wellFormed && imm.matches (Machine.twoByWidth w)
  | .movRegImm w _ imm => imm.matches (Machine.twoByWidth w)
  | .movAccMem _ _ => true
  | .movMemAcc _ _ => true
  | .addRmReg _ _ _ rm => rm.wellFormed
  | .subRmReg _ _ _ rm => rm.wellFormed
  | .cmpRmReg _ _ _ rm => rm.wellFormed
  | .addRmImm sgn w rm imm => rm.wellFormed && imm.matches (Machine.twoBySw sgn w)
  | .subRmImm sgn w rm imm => rm.wellFormed && imm.matches (Machine.twoBySw sgn w)
  | .cmpRmImm sgn w rm imm => rm.wellFormed && imm.matches (Machine.twoBySw sgn w)
  | .addAccImm w imm => imm.matches (Machine.twoByWidth w)
  | .subAccImm w imm => imm.matches (Machine.twoByWidth w)
  | .cmpAccImm w imm => imm.matches (Machine.twoByWidth w)
  | .je _ => true
  | .jl _ => true
  | .jle _ => true
  | .jb _ => true
  | .jbe _ => true
  | .jp _ => true
  | .jo _ => true
  | .js _ => true
  | .jne _ => true
  | .jnl _ => true
  | .jnle _ => true
  | .jnb _ => true
  | .jnbe _ => true
  | .jnp _ => true
  | .jno _ => true

end Sys2Proof
end

