-- ==== Sys2Proof/Decode.lean ====
section
/-! DEFINITION. The decoder, total on any bytes: opcode classifier (30_encoding R46), addressing-mode decoder (R58), immediate
decoder (R65) and the forms of R48; after it the encoder written from the same tables, and the lengths of R47. -/

namespace Sys2Proof

/-- The two faults a decode can raise (00_scope R12, 60_exceptions R110). -/
inductive DecodeFault where
  | shortRead
  | unsupportedOpcode
  deriving DecidableEq, Repr

/-- A failed decode: the fault, and the addressing byte if it had been read (60_exceptions R112). -/
structure DecodeError where
  fault : DecodeFault
  ext : Option Byte
  deriving DecidableEq, Repr

/-- The outcome of decoding from a list of bytes: a value and the bytes not consumed, or a fault. -/
inductive Decoded (α : Type) where
  | ok (value : α) (rest : List Byte)
  | error (e : DecodeError)
  deriving DecidableEq, Repr

/-- Go on with the value and the bytes left; a fault ends the decode (00_scope R11, `raise`). -/
def Decoded.andThen {α β : Type} (x : Decoded α) (f : α → List Byte → Decoded β) : Decoded β :=
  match x with
  | .ok a rest => f a rest
  | .error e => .error e

/-! Bit fields and byte order -/

/-- `lo | (hi << 8)`: the byte read first is the low byte (20_memory R33). -/
def word16 (lo hi : Byte) : Word := lo.zeroExtend 16 ||| (hi.zeroExtend 16 <<< 8)

/-- The low byte of a 16-bit quantity, stored first (20_memory R33). -/
def lowByte (v : Word) : Byte := v.extractLsb' 0 8

/-- The high byte of a 16-bit quantity, stored second (20_memory R33). -/
def highByte (v : Word) : Byte := v.extractLsb' 8 8

/-- The width flag that stands at bit `k` of the opcode byte (30_encoding R41). -/
def widthAt (op : Byte) (k : Nat) : Width := if op.getLsbD k then .wide else .narrow

/-- The direction flag `d = op[1]` (30_encoding R41). -/
def directionOf (op : Byte) : Direction := if op.getLsbD 1 then .toReg else .toRm

/-- The sign-extension flag `s = op[1]` of family 6 (30_encoding R41). -/
def signOf (op : Byte) : Bool := op.getLsbD 1

/-- The direction bit `op[1]` of family 4: set for accumulator to memory (30_encoding R41). -/
def toMemoryOf (op : Byte) : Bool := op.getLsbD 1

/-- `mod = m[7:6]` (30_encoding R42). -/
def modOf (m : Byte) : BitVec 2 := m.extractLsb' 6 2

/-- `reg = m[5:3]` (30_encoding R42). -/
def regOf (m : Byte) : Index := m.extractLsb' 3 3

/-- `rm = m[2:0]` (30_encoding R42). -/
def rmOf (m : Byte) : Index := m.extractLsb' 0 3

/-! The classifier -/

/-- add, sub or cmp: what the families 5, 6 and 7 select (30_encoding R43). -/
inductive ArithOp where
  | add
  | sub
  | cmp
  deriving DecidableEq, Repr

/-- The 15 short conditional jumps (42_jcc R94). -/
inductive JumpOp where
  | je | jl | jle | jb | jbe | jp | jo | js | jne | jnl | jnle | jnb | jnbe | jnp | jno
  deriving DecidableEq, Repr

/-- The class of an opcode byte (30_encoding R46). -/
inductive OpClass where
  | fam1
  | fam2
  | fam3
  | fam4
  | fam5 (op : ArithOp)
  | fam6
  | fam7 (op : ArithOp)
  | fam8 (op : JumpOp)
  | unsupported
  deriving DecidableEq, Repr

/-- `JCC_TABLE` read from the opcode byte (42_jcc R94): 0x79 is not in it (decisions D15, D16; PRESUMED, log entry 11). -/
def jumpOf (op : Byte) : Option JumpOp :=
  if op = 0x74 then some .je
  else if op = 0x7c then some .jl
  else if op = 0x7e then some .jle
  else if op = 0x72 then some .jb
  else if op = 0x76 then some .jbe
  else if op = 0x7a then some .jp
  else if op = 0x70 then some .jo
  else if op = 0x78 then some .js
  else if op = 0x75 then some .jne
  else if op = 0x7d then some .jnl
  else if op = 0x7f then some .jnle
  else if op = 0x73 then some .jnb
  else if op = 0x77 then some .jnbe
  else if op = 0x7b then some .jnp
  else if op = 0x71 then some .jno
  else none

/-- `Classify(op)` (30_encoding R46). -/
def classify (op : Byte) : OpClass :=
  if op &&& 0xfc = 0x88 then .fam1
  else if op &&& 0xfe = 0xc6 then .fam2
  else if op &&& 0xf0 = 0xb0 then .fam3
  else if op &&& 0xfc = 0xa0 then .fam4
  else if op &&& 0xfc = 0x00 then .fam5 .add
  else if op &&& 0xfc = 0x28 then .fam5 .sub
  else if op &&& 0xfc = 0x38 then .fam5 .cmp
  else if op &&& 0xfc = 0x80 then .fam6
  else if op &&& 0xfe = 0x04 then .fam7 .add
  else if op &&& 0xfe = 0x2c then .fam7 .sub
  else if op &&& 0xfe = 0x3c then .fam7 .cmp
  else match jumpOf op with
    | some j => .fam8 j
    | none => .unsupported

/-- The extension selector of family 6: 000 add, 101 sub, 111 cmp, no other (30_encoding R46, R67). -/
def arithOfExt (reg : Index) : Option ArithOp :=
  if reg = 0b000 then some .add
  else if reg = 0b101 then some .sub
  else if reg = 0b111 then some .cmp
  else none

/-! Reading bytes -/

/-- `Take(1)`: the next byte, or ShortRead (20_memory R31); `ext` is the addressing byte read so far. -/
def take1 (ext : Option Byte) (bytes : List Byte) : Decoded Byte :=
  match bytes with
  | b :: rest => .ok b rest
  | [] => .error { fault := .shortRead, ext := ext }

/-- `Take(2)`, combined little-endian: both bytes or ShortRead, never one (20_memory R31, R33, R35). -/
def take2 (ext : Option Byte) (bytes : List Byte) : Decoded Word :=
  match bytes with
  | lo :: hi :: rest => .ok (word16 lo hi) rest
  | _ => .error { fault := .shortRead, ext := ext }

/-- `DecodeRM(mod, rm, wide)` up to the width, which the operand takes later (30_encoding R58). -/
def decodeRm (m : Byte) (bytes : List Byte) : Decoded RmField :=
  if modOf m = 0b11 then .ok (.reg (rmOf m)) bytes
  else if modOf m = 0b00 then
    if rmOf m = 0b110 then (take2 (some m) bytes).andThen fun v rest => .ok (.direct v) rest
    else .ok (.mem (rmOf m)) bytes
  else if modOf m = 0b01 then (take1 (some m) bytes).andThen fun b rest => .ok (.memDisp8 (rmOf m) b) rest
  else (take2 (some m) bytes).andThen fun v rest => .ok (.memDisp16 (rmOf m) v) rest

/-- `DecodeImm(two, …)`: two bytes or one (30_encoding R65). -/
def decodeImm (two : Bool) (ext : Option Byte) (bytes : List Byte) : Decoded ImmField :=
  if two then (take2 ext bytes).andThen fun v rest => .ok (.two v) rest
  else (take1 ext bytes).andThen fun b rest => .ok (.one b) rest

/-! The forms -/

/-- Families 1 and 5: addressing byte, then displacement (40_mov R80, 41_arith R85). -/
def decodeRmReg (mk : Direction → Width → Index → RmField → Instr) (op : Byte) (bytes : List Byte) : Decoded Instr :=
  (take1 none bytes).andThen fun m afterM =>
  (decodeRm m afterM).andThen fun rm rest =>
  .ok (mk (directionOf op) (widthAt op 0) (regOf m) rm) rest

/-- Family 2: addressing byte, displacement, immediate; `reg` is not examined (40_mov R81). -/
def decodeMovRmImm (op : Byte) (bytes : List Byte) : Decoded Instr :=
  (take1 none bytes).andThen fun m afterM =>
  (decodeRm m afterM).andThen fun rm afterRm =>
  (decodeImm (Machine.twoByWidth (widthAt op 0)) (some m) afterRm).andThen fun imm rest =>
  .ok (.movRmImm (widthAt op 0) (regOf m) rm imm) rest

/-- Family 3: register and width in the opcode byte, `w` at bit 3 (40_mov R82). -/
def decodeMovRegImm (op : Byte) (bytes : List Byte) : Decoded Instr :=
  (decodeImm (Machine.twoByWidth (widthAt op 3)) none bytes).andThen fun imm rest =>
  .ok (.movRegImm (widthAt op 3) (op.extractLsb' 0 3) imm) rest

/-- Family 4: a 2-byte direct address; `op[1]` says which way (40_mov R83, R84). -/
def decodeMovAcc (op : Byte) (bytes : List Byte) : Decoded Instr :=
  (take2 none bytes).andThen fun addr rest =>
  .ok (if toMemoryOf op then .movMemAcc (widthAt op 0) addr else .movAccMem (widthAt op 0) addr) rest

/-- The register-or-memory form of family 5 for add, sub or cmp (41_arith R85 to R87). -/
def rmRegForm (a : ArithOp) : Direction → Width → Index → RmField → Instr :=
  match a with
  | .add => .addRmReg
  | .sub => .subRmReg
  | .cmp => .cmpRmReg

/-- The immediate form of family 6 (41_arith R88 to R90). -/
def rmImmForm (a : ArithOp) : Bool → Width → RmField → ImmField → Instr :=
  match a with
  | .add => .addRmImm
  | .sub => .subRmImm
  | .cmp => .cmpRmImm

/-- The accumulator form of family 7 (41_arith R91 to R93). -/
def accImmForm (a : ArithOp) : Width → ImmField → Instr :=
  match a with
  | .add => .addAccImm
  | .sub => .subAccImm
  | .cmp => .cmpAccImm

/-- The jump form of family 8 (42_jcc R95 to R109). -/
def jumpForm (j : JumpOp) : Byte → Instr :=
  match j with
  | .je => .je
  | .jl => .jl
  | .jle => .jle
  | .jb => .jb
  | .jbe => .jbe
  | .jp => .jp
  | .jo => .jo
  | .js => .js
  | .jne => .jne
  | .jnl => .jnl
  | .jnle => .jnle
  | .jnb => .jnb
  | .jnbe => .jnbe
  | .jnp => .jnp
  | .jno => .jno

/-- Family 6, `RmImm` of 41_arith: the extension is checked before any further byte is read (30_encoding R67,
60_exceptions R115, decision D8; DEDUCED, log entry 12). -/
def decodeArithRmImm (op : Byte) (bytes : List Byte) : Decoded Instr :=
  (take1 none bytes).andThen fun m afterM =>
  match arithOfExt (regOf m) with
  | none => .error { fault := .unsupportedOpcode, ext := some m }
  | some a =>
    (decodeRm m afterM).andThen fun rm afterRm =>
    (decodeImm (Machine.twoBySw (signOf op) (widthAt op 0)) (some m) afterRm).andThen fun imm rest =>
    .ok (rmImmForm a (signOf op) (widthAt op 0) rm imm) rest

/-- Family 7: immediate to accumulator (41_arith, `AccImm`). -/
def decodeAccImm (a : ArithOp) (op : Byte) (bytes : List Byte) : Decoded Instr :=
  (decodeImm (Machine.twoByWidth (widthAt op 0)) none bytes).andThen fun imm rest =>
  .ok (accImmForm a (widthAt op 0) imm) rest

/-- Family 8: one displacement byte (42_jcc R94). -/
def decodeJump (j : JumpOp) (bytes : List Byte) : Decoded Instr :=
  (take1 none bytes).andThen fun b rest => .ok (jumpForm j b) rest

/-- `Decode` from the opcode byte on (30_encoding R49). The empty list cannot occur in a step (20_memory R32). -/
def decode (bytes : List Byte) : Decoded Instr :=
  match bytes with
  | [] => .error { fault := .shortRead, ext := none }
  | op :: rest =>
    match classify op with
    | .fam1 => decodeRmReg .movRmReg op rest
    | .fam2 => decodeMovRmImm op rest
    | .fam3 => decodeMovRegImm op rest
    | .fam4 => decodeMovAcc op rest
    | .fam5 a => decodeRmReg (rmRegForm a) op rest
    | .fam6 => decodeArithRmImm op rest
    | .fam7 a => decodeAccImm a op rest
    | .fam8 j => decodeJump j rest
    | .unsupported => .error { fault := .unsupportedOpcode, ext := none }

/-! The encoder -/

/-- The bit `w`. -/
def widthBit (w : Width) : BitVec 1 :=
  match w with
  | .narrow => 0
  | .wide => 1

/-- The bit `d`. -/
def directionBit (d : Direction) : BitVec 1 :=
  match d with
  | .toRm => 0
  | .toReg => 1

/-- The three bits `ooo` of 30_encoding R48: 000 add, 101 sub, 111 cmp. -/
def arithBits (a : ArithOp) : Index :=
  match a with
  | .add => 0b000
  | .sub => 0b101
  | .cmp => 0b111

/-- A 16-bit quantity as two bytes, low byte first (20_memory R33). -/
def encodeWord (v : Word) : List Byte := [lowByte v, highByte v]

/-- The addressing byte `mod reg rm` of a field, with the given `reg` (30_encoding R42, R50). -/
def addressingByte (reg : Index) (f : RmField) : Byte :=
  match f with
  | .reg idx => (0b11#2 ++ reg ++ idx : BitVec 8)
  | .mem rm => (0b00#2 ++ reg ++ rm : BitVec 8)
  | .direct _ => (0b00#2 ++ reg ++ 0b110#3 : BitVec 8)
  | .memDisp8 rm _ => (0b01#2 ++ reg ++ rm : BitVec 8)
  | .memDisp16 rm _ => (0b10#2 ++ reg ++ rm : BitVec 8)

/-- The displacement or direct-address bytes of a field (30_encoding R48). -/
def encodeDisp (f : RmField) : List Byte :=
  match f with
  | .reg _ => []
  | .mem _ => []
  | .direct addr => encodeWord addr
  | .memDisp8 _ d => [d]
  | .memDisp16 _ d => encodeWord d

/-- The immediate bytes (30_encoding R48). -/
def encodeImm (imm : ImmField) : List Byte :=
  match imm with
  | .one b => [b]
  | .two v => encodeWord v

/-- `00ooo0dw` (30_encoding R48, family 5). -/
def encodeArithRmReg (a : ArithOp) (d : Direction) (w : Width) (reg : Index) (rm : RmField) : List Byte :=
  (0b00#2 ++ arithBits a ++ 0b0#1 ++ directionBit d ++ widthBit w : BitVec 8) :: addressingByte reg rm :: encodeDisp rm

/-- `100000sw mod ooo rm` (30_encoding R48, family 6). -/
def encodeArithRmImm (a : ArithOp) (sgn : Bool) (w : Width) (rm : RmField) (imm : ImmField) : List Byte :=
  (0b100000#6 ++ BitVec.ofBool sgn ++ widthBit w : BitVec 8) :: addressingByte (arithBits a) rm ::
    (encodeDisp rm ++ encodeImm imm)

/-- `00ooo10w` (30_encoding R48, family 7). -/
def encodeAccImm (a : ArithOp) (w : Width) (imm : ImmField) : List Byte :=
  (0b00#2 ++ arithBits a ++ 0b10#2 ++ widthBit w : BitVec 8) :: encodeImm imm

/-- The bytes of an instruction, from the formats of 30_encoding R48 and the jump bytes of 42_jcc R94. -/
def encode (i : Instr) : List Byte :=
  match i with
  | .movRmReg d w reg rm =>
    (0b100010#6 ++ directionBit d ++ widthBit w : BitVec 8) :: addressingByte reg rm :: encodeDisp rm
  | .movRmImm w unused rm imm =>
    (0b1100011#7 ++ widthBit w : BitVec 8) :: addressingByte unused rm :: (encodeDisp rm ++ encodeImm imm)
  | .movRegImm w reg imm => (0b1011#4 ++ widthBit w ++ reg : BitVec 8) :: encodeImm imm
  | .movAccMem w addr => (0b1010000#7 ++ widthBit w : BitVec 8) :: encodeWord addr
  | .movMemAcc w addr => (0b1010001#7 ++ widthBit w : BitVec 8) :: encodeWord addr
  | .addRmReg d w reg rm => encodeArithRmReg .add d w reg rm
  | .subRmReg d w reg rm => encodeArithRmReg .sub d w reg rm
  | .cmpRmReg d w reg rm => encodeArithRmReg .cmp d w reg rm
  | .addRmImm sgn w rm imm => encodeArithRmImm .add sgn w rm imm
  | .subRmImm sgn w rm imm => encodeArithRmImm .sub sgn w rm imm
  | .cmpRmImm sgn w rm imm => encodeArithRmImm .cmp sgn w rm imm
  | .addAccImm w imm => encodeAccImm .add w imm
  | .subAccImm w imm => encodeAccImm .sub w imm
  | .cmpAccImm w imm => encodeAccImm .cmp w imm
  | .je rel => [0x74, rel]
  | .jl rel => [0x7c, rel]
  | .jle rel => [0x7e, rel]
  | .jb rel => [0x72, rel]
  | .jbe rel => [0x76, rel]
  | .jp rel => [0x7a, rel]
  | .jo rel => [0x70, rel]
  | .js rel => [0x78, rel]
  | .jne rel => [0x75, rel]
  | .jnl rel => [0x7d, rel]
  | .jnle rel => [0x7f, rel]
  | .jnb rel => [0x73, rel]
  | .jnbe rel => [0x77, rel]
  | .jnp rel => [0x7b, rel]
  | .jno rel => [0x71, rel]

/-! Lengths -/

/-- `DispLen(mod, rm)`: the bytes after the addressing byte (30_encoding R47). -/
def dispLength (f : RmField) : Nat :=
  match f with
  | .reg _ => 0
  | .mem _ => 0
  | .direct _ => 2
  | .memDisp8 _ _ => 1
  | .memDisp16 _ _ => 2

/-- The number of immediate bytes (30_encoding R62). -/
def immLength (imm : ImmField) : Nat :=
  match imm with
  | .one _ => 1
  | .two _ => 2

/-! The host's view of the opcode table -/

/-- The bytes of a table word: byte `j` is bits `8j+7 .. 8j` of `w`, kept below `nbits`, then zeros up to the longest
instruction. DEC's unit is the byte, so no byte order enters. -/
def tableBytes (nbits w : Nat) : List Byte :=
  (List.range Config.maxLength).map fun j => BitVec.ofNat 8 ((w % 2 ^ nbits) >>> (8 * j))

/-- The instruction the decoder reads from a table word. -/
def decodeTableWord (nbits w : Nat) : Option Instr :=
  match decode (tableBytes nbits w) with
  | .ok i _ => some i
  | .error _ => none

end Sys2Proof
end

