-- ==== Sys2Proof/Machine/Record.lean ====
section
/-! DEFINITION. The decode record DEC emits (00_scope R12): mnemonic, operands destination first, family, length. -/

namespace Sys2Proof.Machine

/-- The 19 mnemonics (00_scope R12, 30_encoding R78). -/
inductive Mnemonic where
  | mov | add | sub | cmp
  | je | jl | jle | jb | jbe | jp | jo | js | jne | jnl | jnle | jnb | jnbe | jnp | jno
  deriving DecidableEq, Repr

/-- A displacement as read: `disp8 v` and `disp16 v` differ even where `v` is the same number (30_encoding R57). -/
inductive Disp where
  | noDisp
  | disp8 (v : Byte)
  | disp16 (v : Word)
  deriving DecidableEq, Repr

/-- The number of bytes an immediate was read from: 1 or 2 (00_scope R12). -/
inductive ImmBytes where
  | one
  | two
  deriving DecidableEq, Repr

/-- An operand (00_scope R12). -/
inductive Operand where
  /-- `Reg(idx, wide)`. -/
  | reg (idx : Index) (w : Width)
  /-- `Mem(rm, disp)`: the raw `rm`, no effective address (20_memory R29). -/
  | mem (rm : Index) (disp : Disp)
  /-- `Direct(addr)`. -/
  | direct (addr : Word)
  /-- `Imm(value, nbytes, explicit, sx)`: a 16-bit slot, zero-extended from one byte (30_encoding R62). -/
  | imm (value : Word) (nbytes : ImmBytes) (explicit sx : Bool)
  /-- `Rel(d)`, a signed 8-bit integer (42_jcc R94; DESIGN CHOICE, log entry 15). -/
  | rel (d : Int)
  deriving DecidableEq, Repr

/-- The eight families (30_encoding R43). -/
inductive Family where
  | fam1 | fam2 | fam3 | fam4 | fam5 | fam6 | fam7 | fam8
  deriving DecidableEq, Repr

/-- A decode record (00_scope R12): `len` is the number of bytes consumed. -/
structure Record where
  mn : Mnemonic
  ops : List Operand
  fam : Family
  len : Nat
  deriving DecidableEq, Repr

end Sys2Proof.Machine
end

