-- ==== Sys2Proof/Machine/State.lean ====
section
/-! DEFINITION. The state of DEC as plain data (10_state R14 to R18), with the byte source and the level of the host's reset,
which the host supplies; the reasons a step can stop; and the state right after reset (10_state R27). -/

namespace Sys2Proof.Machine

/-- The bytes of the source as (offset, byte) cells in one canonical form: offsets strictly rising, no zero byte listed
(an unlisted offset reads as 0, DESIGN CHOICE, log entry 1). -/
abbrev Memory := List Host.Cell

/-- The status register (10_state R16, decision D6; DEDUCED, log entry 13). -/
inductive Status where
  /-- DEC will decode another instruction. -/
  | run
  /-- The source was exhausted at an instruction boundary. -/
  | done
  /-- A fault was raised. -/
  | fault
  deriving DecidableEq, Repr

/-- The fault causes (60_exceptions R110). -/
inductive Cause where
  | none
  | shortRead
  | unsupportedOpcode
  /-- Reserved to the environment; DEC never writes it (60_exceptions R119). -/
  | sourceUnavailable
  deriving DecidableEq, Repr

/-- The fault record (10_state R17, decision D7; DEDUCED, log entry 13); `offset` is the spec's `fault.at`. -/
structure FaultRecord where
  cause : Cause
  offset : Nat
  opcode : Byte
  extValid : Bool
  ext : Byte
  deriving DecidableEq, Repr

/-- The fault record's reset value: all zero (10_state R17, R27). -/
def FaultRecord.reset : FaultRecord :=
  { cause := .none, offset := 0, opcode := 0, extValid := false, ext := 0 }

/-- The state of the machine. -/
structure State where
  /-- `SRC`, supplied by the host and read-only to DEC (20_memory R28, R29). -/
  src : Memory
  /-- `LEN`, the number of bytes of `SRC` (00_scope R8). -/
  len : Nat
  /-- The host holds reset (70_reset_and_hazards R125). -/
  resetHeld : Bool
  /-- The byte cursor (10_state R14). -/
  pos : Nat
  /-- The status register (10_state R16). -/
  status : Status
  /-- The fault record (10_state R17). -/
  fault : FaultRecord
  /-- The output sequence, oldest first (10_state R18). -/
  out : List Record
  deriving DecidableEq, Repr

/-- The stuck states: no step is enabled, so none of these is a fault of the spec's taxonomy, whose two faults are next states
(60_exceptions R112; DESIGN CHOICE, log entry 9). -/
inductive Fault where
  /-- Raised by a step while the host holds reset (70_reset_and_hazards R125). Safe: the spec takes no step there. -/
  | heldInReset
  /-- Raised by a step in DONE (10_state R16, 93_implementation_defined U9). Safe: the spec takes no step there. -/
  | ended
  /-- Raised by a step in FAULT (60_exceptions R117, 93_implementation_defined U9). Safe: the spec takes no step there. -/
  | failed
  /-- Raised by a step with `pos > LEN`, which never holds (10_state R14). Safe: no run reaches it. -/
  | cursorPastEnd
  deriving DecidableEq, Repr

/-- What the model gives no meaning to. -/
inductive Refusal where
  /-- Raised by an arm of exec for an instruction without a meaning; no arm does. Safe. -/
  | notModelled (mnemonic : String)
  /-- Raised by the host action `load` outside reset: a source that changes during a run is outside the spec
  (20_memory R39, 70_reset_and_hazards R128, R130, 93_implementation_defined U8). Safe: the model stops. -/
  | sourceChangeOutsideReset
  /-- Raised by the host action `releaseReset` where reset is not held: the table of 70_reset_and_hazards R130 has no such
  action. Safe: the model stops. -/
  | resetNotHeld
  deriving DecidableEq, Repr

/-- The machine right after reset (10_state R27, 70_reset_and_hazards R126). The source is the host's; with none placed it is
the empty source (DESIGN CHOICE, log entry 2). -/
def State.reset : State :=
  { src := []
    len := 0
    resetHeld := false
    pos := Config.start
    status := .run
    fault := FaultRecord.reset
    out := [] }

end Sys2Proof.Machine
end

