-- ==== Sys2Proof/Machine/Ops.lean ====
section
/-! DEFINITION. The named operations: memory as a canonical list of cells, reading the source, emitting a record, the clean end,
raising a fault (60_exceptions R112), and the encodings of the host-visible registers. -/

namespace Sys2Proof.Machine

/-! The byte source -/

/-- The canonical form: offsets strictly rising, no listed byte equal to what an unlisted offset reads as. -/
def Memory.wf (m : Memory) : Bool :=
  match m with
  | [] => true
  | (a, b) :: rest => b != 0 && rest.all (fun c => decide (a < c.1)) && Memory.wf rest

/-- What an offset reads as: the listed byte, else 0 (DESIGN CHOICE, log entry 1). -/
def byteAt (m : Memory) (a : Nat) : Byte :=
  match m with
  | [] => 0
  | (x, b) :: rest => if a = x then b else byteAt rest a

/-- Write one byte, keeping the canonical form. DEC never writes (20_memory R29); placing an instruction word does. -/
def writeByte (m : Memory) (a : Nat) (b : Byte) : Memory :=
  match m with
  | [] => if b = 0 then [] else [(a, b)]
  | (x, v) :: rest =>
    if a < x then (if b = 0 then (x, v) :: rest else (a, b) :: (x, v) :: rest)
    else if a = x then (if b = 0 then rest else (a, b) :: rest)
    else (x, v) :: writeByte rest a b

/-- Write bytes at ascending offsets. -/
def writeBytes (m : Memory) (a : Nat) (bytes : List Byte) : Memory :=
  match bytes with
  | [] => m
  | b :: rest => writeBytes (writeByte m a b) (a + 1) rest

/-- The canonical cells of a whole source whose first byte stands at offset `a` (70_reset_and_hazards R128). -/
def loadBytes (a : Nat) (bytes : List Byte) : Memory :=
  match bytes with
  | [] => []
  | b :: rest => if b = 0 then loadBytes (a + 1) rest else (a, b) :: loadBytes (a + 1) rest

/-- `MemRead(addr, n)`: the `n` bytes from `addr`, defined only where they all exist (20_memory R30). -/
def memRead (s : State) (addr n : Nat) : Option (List Byte) :=
  if addr + n ≤ s.len then some ((List.range n).map fun k => byteAt s.src (addr + k)) else none

/-- The bytes a decode that starts at offset `p` can reach: `SRC[p .. p+5]`, those that exist
(10_state R20; DEDUCED, log entry 4). -/
def window (s : State) (p : Nat) : List Byte :=
  (memRead s p (min Config.maxLength (s.len - p))).getD []

/-! The step's effects -/

/-- A step needs reset released and `status = RUN`; in DONE and in FAULT there is no step (10_state R21,
70_reset_and_hazards R125). -/
def whenRunning (s : State) (o : Host.Outcome State Fault Refusal) : Host.Outcome State Fault Refusal :=
  if s.resetHeld then .fault .heldInReset
  else match s.status with
    | .run => o
    | .done => .fault .ended
    | .fault => .fault .failed

/-- The state after `Emit(r); pos <- pos + r.len` (10_state R15, R18, R21). -/
def emitted (r : Record) (s : State) : State :=
  { s with out := s.out ++ [r], pos := s.pos + r.len }

/-- Emit a record, where a step is enabled (10_state R21). -/
def emit (r : Record) (s : State) : Host.Outcome State Fault Refusal :=
  whenRunning s (.next (emitted r s))

/-- CleanEnd: `status <- DONE`, nothing else (60_exceptions R111). -/
def cleanEnd (s : State) : State := { s with status := .done }

/-- The cause a decode's fault is recorded under (60_exceptions R112). -/
def causeOf (f : DecodeFault) : Cause :=
  match f with
  | .shortRead => .shortRead
  | .unsupportedOpcode => .unsupportedOpcode

/-- The fault record of a decode that started at `pos` (60_exceptions R112, R113). -/
def faultRecordOf (e : DecodeError) (s : State) : FaultRecord :=
  { cause := causeOf e.fault
    offset := s.pos
    opcode := byteAt s.src s.pos
    extValid := e.ext.isSome
    ext := e.ext.getD 0 }

/-- `raise f`: the five fields of `fault` and `status`; `pos` and `out` unchanged (60_exceptions R112, R116). There is no
return from it (R117). -/
def raiseFault (e : DecodeError) (s : State) : State :=
  { s with fault := faultRecordOf e s, status := .fault }

/-! Encodings of the host-visible registers -/

/-- The two bits of `status` (10_state R16). -/
def Status.code (x : Status) : BitVec 2 :=
  match x with
  | .run => 0b00
  | .done => 0b01
  | .fault => 0b10

/-- The two bits of `fault.cause` (60_exceptions R110). -/
def Cause.code (c : Cause) : BitVec 2 :=
  match c with
  | .none => 0
  | .shortRead => 1
  | .unsupportedOpcode => 2
  | .sourceUnavailable => 3

end Sys2Proof.Machine
end

