-- ==== Sys2Proof/Machine/Operands.lean ====
section
/-! DEFINITION. Every operand form, and the record of each family's shape (30_encoding R50 to R65; the shared bodies of
40_mov, 41_arith and 42_jcc). -/

namespace Sys2Proof.Machine

/-- The operand of a register-or-memory field; the width matters only for `mod = 11` (30_encoding R51 to R58). -/
def rmOperand (f : RmField) (w : Width) : Operand :=
  match f with
  | .reg idx => .reg idx w
  | .mem rm => .mem rm .noDisp
  | .direct addr => .direct addr
  | .memDisp8 rm d => .mem rm (.disp8 d)
  | .memDisp16 rm d => .mem rm (.disp16 d)

/-- The immediate operand: one byte is zero-extended into the 16-bit slot, never sign-extended (30_encoding R62, R65,
decision D13; DEDUCED, log entry 14). -/
def immOperand (imm : ImmField) (explicit sx : Bool) : Operand :=
  match imm with
  | .one b => .imm (b.zeroExtend 16) .one explicit sx
  | .two v => .imm v .two explicit sx

/-- The accumulator, `al` or `ax` by width (10_state R24). -/
def accumulator (w : Width) : Operand := .reg 0 w

/-- `signed_8(b)` (00_scope R11). -/
def signed8 (b : Byte) : Int := if b.toNat < 128 then b.toNat else (b.toNat : Int) - 256

/-- The body of families 1 and 5 (40_mov R80; `RmReg` of 41_arith). -/
def rmRegRecord (mn : Mnemonic) (fam : Family) (d : Direction) (w : Width) (reg : Index) (rm : RmField) : Record :=
  { mn := mn
    ops := match d with
      | .toReg => [.reg reg w, rmOperand rm w]
      | .toRm => [rmOperand rm w, .reg reg w]
    fam := fam
    len := 2 + dispLength rm }

/-- The body of families 2 and 6 (40_mov R81; `RmImm` of 41_arith). -/
def rmImmRecord (mn : Mnemonic) (fam : Family) (w : Width) (rm : RmField) (imm : ImmField) (sx : Bool) : Record :=
  { mn := mn
    ops := [rmOperand rm w, immOperand imm (explicitTag rm) sx]
    fam := fam
    len := 2 + dispLength rm + immLength imm }

/-- The body of families 3 and 7: a register destination, so no tag and no `sx` (40_mov R82; `AccImm` of 41_arith). -/
def regImmRecord (mn : Mnemonic) (fam : Family) (dst : Operand) (imm : ImmField) : Record :=
  { mn := mn
    ops := [dst, immOperand imm false false]
    fam := fam
    len := 1 + immLength imm }

/-- The body of family 8 (`Jcc` of 42_jcc R94). -/
def jumpRecord (mn : Mnemonic) (rel : Byte) : Record :=
  { mn := mn
    ops := [.rel (signed8 rel)]
    fam := .fam8
    len := 2 }

end Sys2Proof.Machine
end

