-- ==== Sys2Proof/Machine/Arith.lean ====
section
/-! DEFINITION. The add, sub and cmp forms, families 5 to 7 (41_arith R85 to R93): what DEC emits for each.
Nothing is added, subtracted or compared. -/

namespace Sys2Proof.Machine

/-- ADD_RM_REG (41_arith R85). -/
def execAddRmReg (d : Direction) (w : Width) (reg : Index) (rm : RmField) (s : State) : Host.Outcome State Fault Refusal :=
  emit (rmRegRecord .add .fam5 d w reg rm) s

/-- SUB_RM_REG (41_arith R86). -/
def execSubRmReg (d : Direction) (w : Width) (reg : Index) (rm : RmField) (s : State) : Host.Outcome State Fault Refusal :=
  emit (rmRegRecord .sub .fam5 d w reg rm) s

/-- CMP_RM_REG (41_arith R87). -/
def execCmpRmReg (d : Direction) (w : Width) (reg : Index) (rm : RmField) (s : State) : Host.Outcome State Fault Refusal :=
  emit (rmRegRecord .cmp .fam5 d w reg rm) s

/-- ADD_RM_IMM (41_arith R88). -/
def execAddRmImm (sgn : Bool) (w : Width) (rm : RmField) (imm : ImmField) (s : State) :
    Host.Outcome State Fault Refusal :=
  emit (rmImmRecord .add .fam6 w rm imm (sxBySw sgn w)) s

/-- SUB_RM_IMM (41_arith R89). -/
def execSubRmImm (sgn : Bool) (w : Width) (rm : RmField) (imm : ImmField) (s : State) :
    Host.Outcome State Fault Refusal :=
  emit (rmImmRecord .sub .fam6 w rm imm (sxBySw sgn w)) s

/-- CMP_RM_IMM (41_arith R90). -/
def execCmpRmImm (sgn : Bool) (w : Width) (rm : RmField) (imm : ImmField) (s : State) :
    Host.Outcome State Fault Refusal :=
  emit (rmImmRecord .cmp .fam6 w rm imm (sxBySw sgn w)) s

/-- ADD_ACC_IMM (41_arith R91). -/
def execAddAccImm (w : Width) (imm : ImmField) (s : State) : Host.Outcome State Fault Refusal :=
  emit (regImmRecord .add .fam7 (accumulator w) imm) s

/-- SUB_ACC_IMM (41_arith R92). -/
def execSubAccImm (w : Width) (imm : ImmField) (s : State) : Host.Outcome State Fault Refusal :=
  emit (regImmRecord .sub .fam7 (accumulator w) imm) s

/-- CMP_ACC_IMM (41_arith R93). -/
def execCmpAccImm (w : Width) (imm : ImmField) (s : State) : Host.Outcome State Fault Refusal :=
  emit (regImmRecord .cmp .fam7 (accumulator w) imm) s

end Sys2Proof.Machine
end

