-- ==== Sys2Proof/Machine/Jcc.lean ====
section
/-! DEFINITION. The short conditional jumps, family 8 (42_jcc R94 to R109): decoded, not evaluated and not followed. -/

namespace Sys2Proof.Machine

/-- JE (42_jcc R95). -/
def execJe (rel : Byte) (s : State) : Host.Outcome State Fault Refusal := emit (jumpRecord .je rel) s

/-- JL (42_jcc R96). -/
def execJl (rel : Byte) (s : State) : Host.Outcome State Fault Refusal := emit (jumpRecord .jl rel) s

/-- JLE (42_jcc R97). -/
def execJle (rel : Byte) (s : State) : Host.Outcome State Fault Refusal := emit (jumpRecord .jle rel) s

/-- JB (42_jcc R98). -/
def execJb (rel : Byte) (s : State) : Host.Outcome State Fault Refusal := emit (jumpRecord .jb rel) s

/-- JBE (42_jcc R99). -/
def execJbe (rel : Byte) (s : State) : Host.Outcome State Fault Refusal := emit (jumpRecord .jbe rel) s

/-- JP (42_jcc R100). -/
def execJp (rel : Byte) (s : State) : Host.Outcome State Fault Refusal := emit (jumpRecord .jp rel) s

/-- JO (42_jcc R101). -/
def execJo (rel : Byte) (s : State) : Host.Outcome State Fault Refusal := emit (jumpRecord .jo rel) s

/-- JS (42_jcc R102). -/
def execJs (rel : Byte) (s : State) : Host.Outcome State Fault Refusal := emit (jumpRecord .js rel) s

/-- JNE (42_jcc R103). -/
def execJne (rel : Byte) (s : State) : Host.Outcome State Fault Refusal := emit (jumpRecord .jne rel) s

/-- JNL (42_jcc R104). -/
def execJnl (rel : Byte) (s : State) : Host.Outcome State Fault Refusal := emit (jumpRecord .jnl rel) s

/-- JNLE (42_jcc R105). -/
def execJnle (rel : Byte) (s : State) : Host.Outcome State Fault Refusal := emit (jumpRecord .jnle rel) s

/-- JNB (42_jcc R106). -/
def execJnb (rel : Byte) (s : State) : Host.Outcome State Fault Refusal := emit (jumpRecord .jnb rel) s

/-- JNBE (42_jcc R107). -/
def execJnbe (rel : Byte) (s : State) : Host.Outcome State Fault Refusal := emit (jumpRecord .jnbe rel) s

/-- JNP (42_jcc R108). -/
def execJnp (rel : Byte) (s : State) : Host.Outcome State Fault Refusal := emit (jumpRecord .jnp rel) s

/-- JNO (42_jcc R109). -/
def execJno (rel : Byte) (s : State) : Host.Outcome State Fault Refusal := emit (jumpRecord .jno rel) s

end Sys2Proof.Machine
end

