-- ==== Sys2Proof/Machine/Mov.lean ====
section
/-! DEFINITION. The mov forms, families 1 to 4 (40_mov R80 to R84): what DEC emits for each. -/

namespace Sys2Proof.Machine

/-- MOV_RM_REG (40_mov R80). -/
def execMovRmReg (d : Direction) (w : Width) (reg : Index) (rm : RmField) (s : State) : Host.Outcome State Fault Refusal :=
  emit (rmRegRecord .mov .fam1 d w reg rm) s

/-- MOV_RM_IMM (40_mov R81): `unused` is not examined (30_encoding R68). -/
def execMovRmImm (w : Width) (_unused : Index) (rm : RmField) (imm : ImmField) (s : State) : Host.Outcome State Fault Refusal :=
  emit (rmImmRecord .mov .fam2 w rm imm false) s

/-- MOV_REG_IMM (40_mov R82). -/
def execMovRegImm (w : Width) (reg : Index) (imm : ImmField) (s : State) : Host.Outcome State Fault Refusal :=
  emit (regImmRecord .mov .fam3 (.reg reg w) imm) s

/-- MOV_ACC_MEM (40_mov R83): memory to accumulator, the address 2 bytes whatever `w` is. -/
def execMovAccMem (w : Width) (addr : Word) (s : State) : Host.Outcome State Fault Refusal :=
  emit { mn := .mov, ops := [accumulator w, .direct addr], fam := .fam4, len := 3 } s

/-- MOV_MEM_ACC (40_mov R84): accumulator to memory. -/
def execMovMemAcc (w : Width) (addr : Word) (s : State) : Host.Outcome State Fault Refusal :=
  emit { mn := .mov, ops := [.direct addr, accumulator w], fam := .fam4, len := 3 } s

end Sys2Proof.Machine
end

