-- ==== Sys2Proof/Machine/Dispatch.lean ====
section
/-! DEFINITION. One arm per constructor of Instr: what DEC outputs for the instruction (00_scope R3). -/

namespace Sys2Proof.Machine

def exec (i : Instr) (s : State) : Host.Outcome State Fault Refusal :=
  match i with
  | .movRmReg d w reg rm => Sys2Proof.Machine.execMovRmReg d w reg rm s
  | .movRmImm w unused rm imm => Sys2Proof.Machine.execMovRmImm w unused rm imm s
  | .movRegImm w reg imm => Sys2Proof.Machine.execMovRegImm w reg imm s
  | .movAccMem w addr => Sys2Proof.Machine.execMovAccMem w addr s
  | .movMemAcc w addr => Sys2Proof.Machine.execMovMemAcc w addr s
  | .addRmReg d w reg rm => Sys2Proof.Machine.execAddRmReg d w reg rm s
  | .subRmReg d w reg rm => Sys2Proof.Machine.execSubRmReg d w reg rm s
  | .cmpRmReg d w reg rm => Sys2Proof.Machine.execCmpRmReg d w reg rm s
  | .addRmImm sgn w rm imm => Sys2Proof.Machine.execAddRmImm sgn w rm imm s
  | .subRmImm sgn w rm imm => Sys2Proof.Machine.execSubRmImm sgn w rm imm s
  | .cmpRmImm sgn w rm imm => Sys2Proof.Machine.execCmpRmImm sgn w rm imm s
  | .addAccImm w imm => Sys2Proof.Machine.execAddAccImm w imm s
  | .subAccImm w imm => Sys2Proof.Machine.execSubAccImm w imm s
  | .cmpAccImm w imm => Sys2Proof.Machine.execCmpAccImm w imm s
  | .je rel => Sys2Proof.Machine.execJe rel s
  | .jl rel => Sys2Proof.Machine.execJl rel s
  | .jle rel => Sys2Proof.Machine.execJle rel s
  | .jb rel => Sys2Proof.Machine.execJb rel s
  | .jbe rel => Sys2Proof.Machine.execJbe rel s
  | .jp rel => Sys2Proof.Machine.execJp rel s
  | .jo rel => Sys2Proof.Machine.execJo rel s
  | .js rel => Sys2Proof.Machine.execJs rel s
  | .jne rel => Sys2Proof.Machine.execJne rel s
  | .jnl rel => Sys2Proof.Machine.execJnl rel s
  | .jnle rel => Sys2Proof.Machine.execJnle rel s
  | .jnb rel => Sys2Proof.Machine.execJnb rel s
  | .jnbe rel => Sys2Proof.Machine.execJnbe rel s
  | .jnp rel => Sys2Proof.Machine.execJnp rel s
  | .jno rel => Sys2Proof.Machine.execJno rel s

end Sys2Proof.Machine
end

