-- ==== Sys2Proof/Machine/Cycle.lean ====
section
/-! DEFINITION. One step of DEC (10_state R21), and placing an instruction where the next step reads it. -/

namespace Sys2Proof.Machine

/-- The step (10_state R21): the clean end at an instruction boundary, else decode one instruction at `pos` and emit its record,
or raise the decode's fault (DEDUCED, log entry 10). `pos > LEN` never holds (10_state R14). -/
def cycle (s : State) : Host.Outcome State Fault Refusal :=
  whenRunning s
    (if s.pos = s.len then .next (cleanEnd s)
     else if s.len < s.pos then .fault .cursorPastEnd
     else match decode (window s s.pos) with
       | .ok i _ => exec i s
       | .error e => .next (raiseFault e s))

/-- The bytes stand at `pos` and `SRC` reaches at least to their end (DESIGN CHOICE, log entry 2). -/
def placeBytes (bytes : List Byte) (s : State) : State :=
  { s with src := writeBytes s.src s.pos bytes, len := max s.len (s.pos + bytes.length) }

end Sys2Proof.Machine
end

