-- ==== Sys2Proof/Machine/Step.lean ====
section
/-! DEFINITION. The step, and the state with a table word's instruction where the next step fetches it. -/

namespace Sys2Proof.Machine

/-- One step of DEC (10_state R21). -/
def step (s : State) : Host.Outcome State Fault Refusal := cycle s

/-- `s` with the instruction of a table word at `pos`, which stands for the host's load of a source
(DESIGN CHOICE, log entry 2). -/
def State.withFetchWord (s : State) (nbits w : Nat) : State := placeBytes (tableBytes nbits w) s

end Sys2Proof.Machine
end

