-- ==== Sys2Proof/Machine/Render.lean ====
section
/-! DEFINITION. The assembler syntax of a decode record, a pure function of it (30_encoding R70 to R77), and the register and
base-expression names (10_state R23, R24, 30_encoding R53). -/

namespace Sys2Proof.Machine

/-- `HEADER`, the header line: OPEN in the spec, with this default (30_encoding R77, decision D17, PRESUMED, log entry 5). -/
def header : String := "bits 16"

/-- The wide designators in index order (10_state R23). -/
def wideNames : List String := ["ax", "cx", "dx", "bx", "sp", "bp", "si", "di"]

/-- The narrow designators in index order (10_state R24). -/
def narrowNames : List String := ["al", "cl", "dl", "bl", "ah", "ch", "dh", "bh"]

/-- `register_name(index, wide)`: a table lookup with no error path (10_state R22). -/
def registerName (idx : Index) (w : Width) : String :=
  match w with
  | .wide => wideNames.getD idx.toNat ""
  | .narrow => narrowNames.getD idx.toNat ""

/-- `BASE_TABLE` (30_encoding R53): entry 7 repeats entry 0 (90_conflicts C1); entry 6 is `bp`
(decision D11; PRESUMED, log entry 8). -/
def baseTable : List String := ["bx+si", "bx+di", "bp+si", "bp+di", "si", "di", "bp", "bx+si"]

/-- `BASE_TABLE[rm]` (30_encoding R53). -/
def baseExpression (rm : Index) : String := baseTable.getD rm.toNat ""

/-- The digit of a number below 10. -/
def digitChar (n : Nat) : Char := Char.ofNat (48 + n % 10)

/-- The decimal digits of `n`, before the digits already written; the fuel bounds the number of digits. -/
def decDigits (fuel n : Nat) (written : List Char) : List Char :=
  match fuel with
  | 0 => written
  | k + 1 => if n < 10 then digitChar n :: written else decDigits k (n / 10) (digitChar n :: written)

/-- `Dec(n)`: no leading zeros, no sign; `Dec(0) = "0"` (30_encoding R76). -/
def dec (n : Nat) : String := String.ofList (decDigits (n + 1) n [])

/-- `SDec(d)`: a minus sign where negative, no plus sign otherwise (30_encoding R75). -/
def sdec (d : Int) : String := if 0 ≤ d then dec d.toNat else "-" ++ dec (-d).toNat

/-- `Text(mn)`, lowercase as spelled in 00_scope R12 (30_encoding R70, R78). -/
def mnemonicText (mn : Mnemonic) : String :=
  match mn with
  | .mov => "mov"
  | .add => "add"
  | .sub => "sub"
  | .cmp => "cmp"
  | .je => "je"
  | .jl => "jl"
  | .jle => "jle"
  | .jb => "jb"
  | .jbe => "jbe"
  | .jp => "jp"
  | .jo => "jo"
  | .js => "js"
  | .jne => "jne"
  | .jnl => "jnl"
  | .jnle => "jnle"
  | .jnb => "jnb"
  | .jnbe => "jnbe"
  | .jnp => "jnp"
  | .jno => "jno"

/-- The displacement part inside the brackets: always printed where there is one, after a `+` (30_encoding R57, R72). -/
def renderDisp (d : Disp) : String :=
  match d with
  | .noDisp => ""
  | .disp8 v => "+" ++ dec v.toNat
  | .disp16 v => "+" ++ dec v.toNat

/-- The size tag (30_encoding R63, R74): by the number of immediate bytes, not by `w` (decision D14; DEDUCED, log entry 14). -/
def sizeTag (nbytes : ImmBytes) (explicit : Bool) : String :=
  if explicit then
    match nbytes with
    | .one => "byte "
    | .two => "word "
  else ""

/-- `RenderOp` (30_encoding R71 to R75). -/
def renderOperand (o : Operand) : String :=
  match o with
  | .reg idx w => registerName idx w
  | .mem rm d => "[" ++ baseExpression rm ++ renderDisp d ++ "]"
  | .direct addr => "[" ++ dec addr.toNat ++ "]"
  | .imm value nbytes explicit _ => sizeTag nbytes explicit ++ dec value.toNat
  | .rel d => sdec d

/-- The operands, destination first, a comma and one space between them (30_encoding R70). -/
def renderOperands (ops : List Operand) : String :=
  match ops with
  | [] => ""
  | [o] => renderOperand o
  | o :: rest => renderOperand o ++ ", " ++ renderOperands rest

/-- `Render(r)`, one line without a terminator (30_encoding R70). -/
def render (r : Record) : String := mnemonicText r.mn ++ " " ++ renderOperands r.ops

/-- The line stream for a given header: the header line, then one line per record in order (30_encoding R77). -/
def linesWith (headerLine : String) (out : List Record) : List String := headerLine :: out.map render

/-- The line stream a host reads (30_encoding R77, 70_reset_and_hazards R127). -/
def lines (s : State) : List String := linesWith header s.out

end Sys2Proof.Machine
end

