-- ==== Sys2Proof/Machine/HostPort.lean ====
section
/-! DEFINITION. The host's side (70_reset_and_hazards R125 to R130): reset, loading the source while reset is held, and what the
host may read. -/

namespace Sys2Proof.Machine

/-- What the host can do to DEC (70_reset_and_hazards R130). -/
inductive HostAction where
  /-- Hold reset, at any time between steps (R125). -/
  | assertReset
  /-- Write `SRC` and `LEN` while reset is held (R128, R130). -/
  | load (bytes : List Byte)
  /-- Release reset (R125, R130). -/
  | releaseReset
  deriving DecidableEq, Repr

/-- The reset state with the host's source kept: reset does not change `SRC` or `LEN` (10_state R27). -/
def resetKeepingSource (s : State) : State := { State.reset with src := s.src, len := s.len }

/-- The state after a host action. While reset is held DEC's own registers cannot be read, so what they hold then is left as it
was (DESIGN CHOICE, log entry 3). -/
def hostAct (a : HostAction) (s : State) : Host.Outcome State Fault Refusal :=
  match a with
  | .assertReset => .next { s with resetHeld := true }
  | .load bytes =>
    if s.resetHeld then .next { s with src := loadBytes 0 bytes, len := bytes.length }
    else .refused .sourceChangeOutsideReset
  | .releaseReset => if s.resetHeld then .next (resetKeepingSource s) else .refused .resetNotHeld

/-- What the host may read (70_reset_and_hazards R130): the records, the cursor and the status in every row, the fault record
only in the end row; the two registers as their codes (10_state R16, 60_exceptions R110). `pos` is given throughout RUN, as in
the run row, from the release of reset on (DESIGN CHOICE, log entry 16). -/
structure HostView where
  lines : List String
  out : List Record
  pos : Nat
  status : BitVec 2
  fault : Option FaultRecord
  faultCode : Option (BitVec 2)
  deriving DecidableEq, Repr

/-- A read the host has only after the run has ended, in DONE or FAULT (70_reset_and_hazards R130, the end row). -/
def readAtEnd {α : Type} (s : State) (value : α) : Option α :=
  match s.status with
  | .run => none
  | .done => some value
  | .fault => some value

/-- The host's reads: nothing of DEC while reset is held (70_reset_and_hazards R130). -/
def hostView (s : State) : Option HostView :=
  if s.resetHeld then none
  else some
    { lines := lines s
      out := s.out
      pos := s.pos
      status := s.status.code
      fault := readAtEnd s s.fault
      faultCode := readAtEnd s s.fault.cause.code }

end Sys2Proof.Machine
end

