-- ==== Sys2Proof/Machine/Reference.lean ====
section
/-! DEFINITION. The spec's own decode pseudocode, transcribed line by line over a working cursor `p` (00_scope R11, 20_memory R31,
30_encoding R46, R49, R58, R65 and the bodies of 40_mov, 41_arith, 42_jcc). The machine decodes to an Instr and gives it its
meaning in `exec`; an obligation states that its step is the spec's step with this function as `Decode`. -/

namespace Sys2Proof.Machine

/-- `Take(n)` (20_memory R31); `ext` is the addressing byte read so far, for the fault record of 60_exceptions R112. -/
def refTake (s : State) (ext : Option Byte) (n p : Nat) : Except DecodeError (List Byte × Nat) :=
  if p + n > s.len then .error { fault := .shortRead, ext := ext }
  else .ok ((List.range n).map (fun k => byteAt s.src (p + k)), p + n)

/-- `b[0] | (b[1] << 8)` (20_memory R33). -/
def refWord (b : List Byte) : Word :=
  (b.getD 0 0).zeroExtend 16 ||| ((b.getD 1 0).zeroExtend 16 <<< 8)

/-- A flag bit as a width. -/
def refWidth (bit : BitVec 1) : Width := if bit = 1 then .wide else .narrow

/-- `DecodeRM(mod, rm, wide)` (30_encoding R58). -/
def refDecodeRM (s : State) (m : Byte) (w : Width) (p : Nat) : Except DecodeError (Operand × Nat) :=
  let mod := m.extractLsb 7 6
  let rm := m.extractLsb 2 0
  if mod = 0b11 then .ok (.reg rm w, p)
  else if mod = 0b00 ∧ rm = 0b110 then do
    let (b, p) ← refTake s (some m) 2 p
    return (.direct (refWord b), p)
  else if mod = 0b00 then .ok (.mem rm .noDisp, p)
  else if mod = 0b01 then do
    let (b, p) ← refTake s (some m) 1 p
    return (.mem rm (.disp8 (b.getD 0 0)), p)
  else do
    let (b, p) ← refTake s (some m) 2 p
    return (.mem rm (.disp16 (refWord b)), p)

/-- `DecodeImm(two, explicit, sx)` (30_encoding R65). -/
def refDecodeImm (s : State) (ext : Option Byte) (two explicit sx : Bool) (p : Nat) :
    Except DecodeError (Operand × Nat) :=
  if two then do
    let (b, p) ← refTake s ext 2 p
    return (.imm (refWord b) .two explicit sx, p)
  else do
    let (b, p) ← refTake s ext 1 p
    return (.imm ((b.getD 0 0).zeroExtend 16) .one explicit sx, p)

/-- Family 1 and `RmReg(MN)` (40_mov R80, 41_arith). -/
def refRmReg (s : State) (mn : Mnemonic) (fam : Family) (op : Byte) (pos p : Nat) : Except DecodeError Record := do
  let d := op.extractLsb 1 1
  let w := refWidth (op.extractLsb 0 0)
  let (b, p) ← refTake s none 1 p
  let m := b.getD 0 0
  let R := Operand.reg (m.extractLsb 5 3) w
  let (RM, p) ← refDecodeRM s m w p
  let ops := if d = 1 then [R, RM] else [RM, R]
  return { mn := mn, ops := ops, fam := fam, len := p - pos }

/-- MOV_RM_IMM (40_mov R81). -/
def refMovRmImm (s : State) (op : Byte) (pos p : Nat) : Except DecodeError Record := do
  let w := refWidth (op.extractLsb 0 0)
  let (b, p) ← refTake s none 1 p
  let m := b.getD 0 0
  let (dst, p) ← refDecodeRM s m w p
  let (src, p) ← refDecodeImm s (some m) (w = .wide) (m.extractLsb 7 6 ≠ 0b11) false p
  return { mn := .mov, ops := [dst, src], fam := .fam2, len := p - pos }

/-- MOV_REG_IMM (40_mov R82). -/
def refMovRegImm (s : State) (op : Byte) (pos p : Nat) : Except DecodeError Record := do
  let w := refWidth (op.extractLsb 3 3)
  let (src, p) ← refDecodeImm s none (w = .wide) false false p
  return { mn := .mov, ops := [.reg (op.extractLsb 2 0) w, src], fam := .fam3, len := p - pos }

/-- MOV_ACC_MEM and MOV_MEM_ACC (40_mov R83, R84). -/
def refMovAcc (s : State) (op : Byte) (p : Nat) : Except DecodeError Record := do
  let w := refWidth (op.extractLsb 0 0)
  let (b, _) ← refTake s none 2 p
  let addr := refWord b
  let ops := if op.extractLsb 1 1 = 0 then [Operand.reg 0 w, .direct addr] else [.direct addr, .reg 0 w]
  return { mn := .mov, ops := ops, fam := .fam4, len := 3 }

/-- `RmImm` (41_arith, family 6). -/
def refRmImm (s : State) (op : Byte) (pos p : Nat) : Except DecodeError Record := do
  let sw := op.extractLsb 1 0
  let w := refWidth (op.extractLsb 0 0)
  let (b, p) ← refTake s none 1 p
  let m := b.getD 0 0
  let reg := m.extractLsb 5 3
  let mn ←
    if reg = 0b000 then .ok Mnemonic.add
    else if reg = 0b101 then .ok Mnemonic.sub
    else if reg = 0b111 then .ok Mnemonic.cmp
    else .error { fault := .unsupportedOpcode, ext := some m }
  let (dst, p) ← refDecodeRM s m w p
  let (src, p) ← refDecodeImm s (some m) (sw = 0b01) (m.extractLsb 7 6 ≠ 0b11) (sw = 0b11) p
  return { mn := mn, ops := [dst, src], fam := .fam6, len := p - pos }

/-- `AccImm(MN)` (41_arith, family 7). -/
def refAccImm (s : State) (mn : Mnemonic) (op : Byte) (pos p : Nat) : Except DecodeError Record := do
  let w := refWidth (op.extractLsb 0 0)
  let (src, p) ← refDecodeImm s none (w = .wide) false false p
  return { mn := mn, ops := [.reg 0 w, src], fam := .fam7, len := p - pos }

/-- `JCC_TABLE` (42_jcc R94). -/
def refJccTable : List (Byte × Mnemonic) :=
  [(0x74, .je), (0x7c, .jl), (0x7e, .jle), (0x72, .jb), (0x76, .jbe), (0x7a, .jp), (0x70, .jo), (0x78, .js),
   (0x75, .jne), (0x7d, .jnl), (0x7f, .jnle), (0x73, .jnb), (0x77, .jnbe), (0x7b, .jnp), (0x71, .jno)]

/-- `Jcc(MN)` (42_jcc R94), with `signed_8` of 00_scope R11. -/
def refJcc (s : State) (mn : Mnemonic) (p : Nat) : Except DecodeError Record := do
  let (b, _) ← refTake s none 1 p
  let v : Nat := (b.getD 0 0).toNat
  let d : Int := if v < 128 then v else (v : Int) - 256
  return { mn := mn, ops := [.rel d], fam := .fam8, len := 2 }

/-- `Decode(SRC, pos)` (30_encoding R49) with `Classify` (R46) written in place. -/
def refDecode (s : State) (pos : Nat) : Except DecodeError Record := do
  let (b, p) ← refTake s none 1 pos
  let op := b.getD 0 0
  if op &&& 0xfc = 0x88 then refRmReg s .mov .fam1 op pos p
  else if op &&& 0xfe = 0xc6 then refMovRmImm s op pos p
  else if op &&& 0xf0 = 0xb0 then refMovRegImm s op pos p
  else if op &&& 0xfc = 0xa0 then refMovAcc s op p
  else if op &&& 0xfc = 0x00 then refRmReg s .add .fam5 op pos p
  else if op &&& 0xfc = 0x28 then refRmReg s .sub .fam5 op pos p
  else if op &&& 0xfc = 0x38 then refRmReg s .cmp .fam5 op pos p
  else if op &&& 0xfc = 0x80 then refRmImm s op pos p
  else if op &&& 0xfe = 0x04 then refAccImm s .add op pos p
  else if op &&& 0xfe = 0x2c then refAccImm s .sub op pos p
  else if op &&& 0xfe = 0x3c then refAccImm s .cmp op pos p
  else match refJccTable.lookup op with
    | some mn => refJcc s mn p
    | none => .error { fault := .unsupportedOpcode, ext := none }

end Sys2Proof.Machine
end

