-- ==== Sys2Proof/Safety.lean ====
section
/-! DEFINITION. What the claims are stated in: when a step is enabled, the tables of 30_encoding R47, R66, R67 and 60_exceptions
R114, R115 as functions of the first two bytes, legal records, the invariant of every step, and the listing of the source. -/

namespace Sys2Proof.Safety

open Sys2Proof.Machine

/-- Reset is released and `status = RUN`: a step is enabled (10_state R21). -/
abbrev Running (s : State) : Prop := s.resetHeld = false ∧ s.status = .run

/-! The first two bytes -/

/-- The 193 unsupported opcode bytes, as the ranges of 30_encoding R66. -/
def unsupportedByte (op : Byte) : Bool :=
  (0x06 ≤ op && op ≤ 0x27) || (0x2e ≤ op && op ≤ 0x37) || (0x3e ≤ op && op ≤ 0x6f) || op == 0x79 ||
    (0x84 ≤ op && op ≤ 0x87) || (0x8c ≤ op && op ≤ 0x9f) || (0xa4 ≤ op && op ≤ 0xaf) || (0xc0 ≤ op && op ≤ 0xc5) ||
    0xc8 ≤ op

/-- Families 1 and 5 by opcode byte (30_encoding R43). -/
def rmRegByte (op : Byte) : Bool :=
  (0x88 ≤ op && op ≤ 0x8b) || op ≤ 0x03 || (0x28 ≤ op && op ≤ 0x2b) || (0x38 ≤ op && op ≤ 0x3b)

/-- Family 2 by opcode byte (30_encoding R43). -/
def movRmImmByte (op : Byte) : Bool := op == 0xc6 || op == 0xc7

/-- Family 6 by opcode byte (30_encoding R43). -/
def arithRmImmByte (op : Byte) : Bool := 0x80 ≤ op && op ≤ 0x83

/-- The families with an addressing byte: 1, 2, 5, 6 (30_encoding R40). -/
def addressed (op : Byte) : Bool := rmRegByte op || movRmImmByte op || arithRmImmByte op

/-- The five extension values of family 6 that select no mnemonic (30_encoding R67). -/
def unsupportedExt (m : Byte) : Bool :=
  let reg := regOf m
  reg == 0b001 || reg == 0b010 || reg == 0b011 || reg == 0b100 || reg == 0b110

/-- `DispLen(mod, rm)` of an addressing byte (30_encoding R47). -/
def dispLenOf (m : Byte) : Nat :=
  if modOf m = 0b11 then 0
  else if modOf m = 0b00 then (if rmOf m = 0b110 then 2 else 0)
  else if modOf m = 0b01 then 1
  else 2

/-- The length of an instruction from its opcode byte and, where its family has one, its addressing byte (30_encoding R47);
meant for supported opcode bytes. -/
def lengthFor (op m : Byte) : Nat :=
  if rmRegByte op then 2 + dispLenOf m
  else if movRmImmByte op then 2 + dispLenOf m + (if op == 0xc7 then 2 else 1)
  else if arithRmImmByte op then 2 + dispLenOf m + (if op == 0x81 then 2 else 1)
  else if 0xb0 ≤ op && op ≤ 0xbf then (if 0xb8 ≤ op then 3 else 2)
  else if 0xa0 ≤ op && op ≤ 0xa3 then 3
  else if op == 0x04 || op == 0x2c || op == 0x3c then 2
  else if op == 0x05 || op == 0x2d || op == 0x3d then 3
  else 2

/-- The fault of a decode whose first two bytes are `op` and `m` where `avail` bytes exist, or none: the table of
60_exceptions R114 in the order of R115. -/
def verdict (op m : Byte) (avail : Nat) : Option DecodeFault :=
  if unsupportedByte op then some .unsupportedOpcode
  else if addressed op && avail < 2 then some .shortRead
  else if arithRmImmByte op && unsupportedExt m then some .unsupportedOpcode
  else if avail < lengthFor op m then some .shortRead
  else none

/-! The 16-bit quantities of an instruction -/

/-- The direct address or 16-bit displacement of a field, if it has one. -/
def fieldWord (f : RmField) : Option Word :=
  match f with
  | .reg _ => none
  | .mem _ => none
  | .direct addr => some addr
  | .memDisp8 _ _ => none
  | .memDisp16 _ d => some d

/-- The value of a two-byte immediate. -/
def immWord (imm : ImmField) : Option Word :=
  match imm with
  | .one _ => none
  | .two v => some v

/-- The 16-bit quantity that stands after an addressing byte: a direct address or a displacement (20_memory R33). -/
def wordAfterAddressing (i : Instr) : Option Word :=
  match i with
  | .movRmReg _ _ _ rm => fieldWord rm
  | .movRmImm _ _ rm _ => fieldWord rm
  | .movRegImm _ _ _ => none
  | .movAccMem _ _ => none
  | .movMemAcc _ _ => none
  | .addRmReg _ _ _ rm => fieldWord rm
  | .subRmReg _ _ _ rm => fieldWord rm
  | .cmpRmReg _ _ _ rm => fieldWord rm
  | .addRmImm _ _ rm _ => fieldWord rm
  | .subRmImm _ _ rm _ => fieldWord rm
  | .cmpRmImm _ _ rm _ => fieldWord rm
  | .addAccImm _ _ => none
  | .subAccImm _ _ => none
  | .cmpAccImm _ _ => none
  | .je _ => none
  | .jl _ => none
  | .jle _ => none
  | .jb _ => none
  | .jbe _ => none
  | .jp _ => none
  | .jo _ => none
  | .js _ => none
  | .jne _ => none
  | .jnl _ => none
  | .jnle _ => none
  | .jnb _ => none
  | .jnbe _ => none
  | .jnp _ => none
  | .jno _ => none

/-- The 16-bit quantity an instruction ends in: a two-byte immediate, or the direct address of an accumulator move
(20_memory R33). -/
def wordAtEnd (i : Instr) : Option Word :=
  match i with
  | .movRmReg _ _ _ _ => none
  | .movRmImm _ _ _ imm => immWord imm
  | .movRegImm _ _ imm => immWord imm
  | .movAccMem _ addr => some addr
  | .movMemAcc _ addr => some addr
  | .addRmReg _ _ _ _ => none
  | .subRmReg _ _ _ _ => none
  | .cmpRmReg _ _ _ _ => none
  | .addRmImm _ _ _ imm => immWord imm
  | .subRmImm _ _ _ imm => immWord imm
  | .cmpRmImm _ _ _ imm => immWord imm
  | .addAccImm _ imm => immWord imm
  | .subAccImm _ imm => immWord imm
  | .cmpAccImm _ imm => immWord imm
  | .je _ => none
  | .jl _ => none
  | .jle _ => none
  | .jb _ => none
  | .jbe _ => none
  | .jp _ => none
  | .jo _ => none
  | .js _ => none
  | .jne _ => none
  | .jnl _ => none
  | .jnle _ => none
  | .jnb _ => none
  | .jnbe _ => none
  | .jnp _ => none
  | .jno _ => none

/-! Legal records -/

/-- An operand DEC can emit: no base expression under `mod = 00, rm = 110` (30_encoding R54), a one-byte immediate with a zero
upper byte (R62), a displacement of a jump in -128 to 127 (R75). -/
def operandLegal (o : Operand) : Bool :=
  match o with
  | .reg _ _ => true
  | .mem rm .noDisp => rm != 6
  | .mem _ (.disp8 _) => true
  | .mem _ (.disp16 _) => true
  | .direct _ => true
  | .imm value .one _ _ => value.toNat < 256
  | .imm _ .two _ _ => true
  | .rel d => decide (-128 ≤ d) && decide (d ≤ 127)

/-- The operand is a register. -/
def isReg (o : Operand) : Bool :=
  match o with
  | .reg _ _ => true
  | .mem _ _ => false
  | .direct _ => false
  | .imm _ _ _ _ => false
  | .rel _ => false

/-- The operand is a register, a memory operand or a direct address. -/
def isRm (o : Operand) : Bool :=
  match o with
  | .reg _ _ => true
  | .mem _ _ => true
  | .direct _ => true
  | .imm _ _ _ _ => false
  | .rel _ => false

/-- The operand is an immediate that carries a tag exactly when the destination is no register, and `sx` only where allowed
(30_encoding R63, R64). -/
def immFits (dst : Operand) (sxAllowed : Bool) (o : Operand) : Bool :=
  match o with
  | .imm _ nbytes explicit sx => explicit == !isReg dst && (!sx || (sxAllowed && nbytes == .one))
  | .reg _ _ => false
  | .mem _ _ => false
  | .direct _ => false
  | .rel _ => false

/-- The mnemonic is add, sub or cmp. -/
def isArith (mn : Mnemonic) : Bool := mn == .add || mn == .sub || mn == .cmp

/-- The mnemonic is one of the 15 jumps. -/
def isJump (mn : Mnemonic) : Bool := mn != .mov && !isArith mn

/-- A number in a range, both ends included. -/
def between (lo hi n : Nat) : Bool := decide (lo ≤ n ∧ n ≤ hi)

/-- The mnemonic, the operands and the length fit the family (30_encoding R43, R47, R70). -/
def shapeLegal (fam : Family) (mn : Mnemonic) (ops : List Operand) (len : Nat) : Bool :=
  match fam, ops with
  | .fam1, [a, b] => mn == .mov && isRm a && isRm b && (isReg a || isReg b) && between 2 4 len
  | .fam2, [a, b] => mn == .mov && isRm a && immFits a false b && between 3 6 len
  | .fam3, [a, b] => mn == .mov && isReg a && immFits a false b && between 2 3 len
  | .fam4, [.reg idx _, .direct _] => mn == .mov && idx == 0 && len == 3
  | .fam4, [.direct _, .reg idx _] => mn == .mov && idx == 0 && len == 3
  | .fam5, [a, b] => isArith mn && isRm a && isRm b && (isReg a || isReg b) && between 2 4 len
  | .fam6, [a, b] => isArith mn && isRm a && immFits a true b && between 3 6 len
  | .fam7, [.reg idx w, b] => isArith mn && idx == 0 && immFits (.reg idx w) false b && between 2 3 len
  | .fam8, [.rel _] => isJump mn && len == 2
  | _, _ => false

/-- A record DEC can emit (00_scope R12). -/
def recordLegal (r : Record) : Bool := r.ops.all operandLegal && shapeLegal r.fam r.mn r.ops r.len

/-! The invariant -/

/-- The source is in canonical form and lists no offset at or beyond `LEN` (20_memory R28). -/
def sourceWf (s : State) : Bool := Memory.wf s.src && s.src.all fun c => decide (c.1 < s.len)

/-- The total length of the records (70_reset_and_hazards R129). -/
def totalLength (out : List Record) : Nat := (out.map Record.len).sum

/-- What the fault record holds in FAULT (10_state R17, 60_exceptions R112, 70_reset_and_hazards R129). -/
structure FaultRecorded (s : State) : Prop where
  cause : s.fault.cause = .shortRead ∨ s.fault.cause = .unsupportedOpcode
  offset : s.fault.offset = s.pos
  inside : s.pos < s.len
  opcode : s.fault.opcode = byteAt s.src s.pos
  extSet : s.fault.extValid = true → s.pos + 1 < s.len ∧ s.fault.ext = byteAt s.src (s.pos + 1)
  extClear : s.fault.extValid = false → s.fault.ext = 0

/-- The invariant every step keeps. -/
structure Inv (s : State) : Prop where
  /-- The source is canonical. -/
  source : sourceWf s = true
  /-- `0 <= pos <= LEN` (10_state R14). -/
  cursor : s.pos ≤ s.len
  /-- The lengths of the records sum to `pos` (70_reset_and_hazards R129). -/
  total : totalLength s.out = s.pos
  /-- Every record is one DEC can emit. -/
  legal : s.out.all recordLegal = true
  /-- `fault` holds its reset value outside FAULT (10_state R17). -/
  clear : s.status ≠ .fault → s.fault = FaultRecord.reset
  /-- At DONE, `pos = LEN` (70_reset_and_hazards R129). -/
  done : s.status = .done → s.pos = s.len
  /-- At FAULT, the fault record is that of the instruction at `pos`. -/
  failed : s.status = .fault → FaultRecorded s

/-! The listing of the source -/

/-- The record an instruction emits, read off its meaning. -/
def recordOf (i : Instr) : Option Record :=
  match exec i State.reset with
  | .next t => t.out.head?
  | .fault _ => none
  | .refused _ => none

/-- The immediate of an operand: its value, its number of bytes, its `sx`. -/
def immediateOfOperand (o : Operand) : Option (Word × ImmBytes × Bool) :=
  match o with
  | .imm value nbytes _ sx => some (value, nbytes, sx)
  | .reg _ _ => none
  | .mem _ _ => none
  | .direct _ => none
  | .rel _ => none

/-- The immediate of the record an instruction emits: the second operand's. -/
def immediateOf (i : Instr) : Option (Word × ImmBytes × Bool) :=
  (recordOf i).bind fun r => r.ops[1]?.bind immediateOfOperand

/-- The record decoded at offset `p` of the source, if the decode does not fault. -/
def recordAt (s : State) (p : Nat) : Option Record :=
  match decode (window s p) with
  | .ok i _ => recordOf i
  | .error _ => none

/-- The records are those the source decodes to, end to end from offset `p` to offset `q` (20_memory R38, 60_exceptions R124). -/
def Listed (s : State) (p : Nat) (out : List Record) (q : Nat) : Prop :=
  match out with
  | [] => p = q
  | r :: rest => recordAt s p = some r ∧ Listed s (p + r.len) rest q

/-- `out` lists the source from `START` to `pos`. -/
def Faithful (s : State) : Prop := Listed s Config.start s.out s.pos

end Sys2Proof.Safety
end

