-- ==== Sys2Proof/Certificates/Slice0/Obligations.lean ====
section
/-! DEFINITION. The statements for the provers, from the numbered rules of spec/. -/

open Sys2Proof Sys2Proof.Machine Sys2Proof.Safety

/-! What each instruction emits -/

/-- MOV_RM_REG (40_mov, family 1): in a running state it emits mov with the `reg` operand and the register-or-memory operand,
destination first by `d`, and advances `pos` by 2 and the displacement bytes. Nothing else changes. -/
def Obligations.MovRmRegEmits : Prop :=
  ∀ (d : Direction) (w : Width) (reg : Index) (rm : RmField) (s : State), Running s →
    exec (.movRmReg d w reg rm) s = .next
      { s with
        out := s.out ++
          [{ mn := .mov
             ops := if d = .toReg then [.reg reg w, rmOperand rm w] else [rmOperand rm w, .reg reg w]
             fam := .fam1
             len := 2 + dispLength rm }]
        pos := s.pos + (2 + dispLength rm) }

/-- MOV_RM_IMM (40_mov, family 2): it emits mov with the register-or-memory destination and the immediate, tagged exactly when
the destination is no register, never sign-extended; the `reg` field has no effect (decisions D13, D14, D25). -/
def Obligations.MovRmImmEmits : Prop :=
  ∀ (w : Width) (unused : Index) (rm : RmField) (imm : ImmField) (s : State), Running s →
    exec (.movRmImm w unused rm imm) s = .next
      { s with
        out := s.out ++
          [{ mn := .mov
             ops := [rmOperand rm w, immOperand imm (!isReg (rmOperand rm w)) false]
             fam := .fam2
             len := 2 + dispLength rm + immLength imm }]
        pos := s.pos + (2 + dispLength rm + immLength imm) }

/-- MOV_REG_IMM (40_mov, family 3): it emits mov with the register destination and an untagged immediate. -/
def Obligations.MovRegImmEmits : Prop :=
  ∀ (w : Width) (reg : Index) (imm : ImmField) (s : State), Running s →
    exec (.movRegImm w reg imm) s = .next
      { s with
        out := s.out ++
          [{ mn := .mov, ops := [.reg reg w, immOperand imm false false], fam := .fam3, len := 1 + immLength imm }]
        pos := s.pos + (1 + immLength imm) }

/-- MOV_ACC_MEM and MOV_MEM_ACC (40_mov, family 4): the accumulator is register 0 of width `w`; the first has it as destination,
the second the direct address; 3 bytes. -/
def Obligations.MovAccumulatorEmits : Prop :=
  ∀ (w : Width) (addr : Word) (s : State), Running s →
    exec (.movAccMem w addr) s = .next
      { s with
        out := s.out ++ [{ mn := .mov, ops := [.reg 0 w, .direct addr], fam := .fam4, len := 3 }]
        pos := s.pos + 3 } ∧
    exec (.movMemAcc w addr) s = .next
      { s with
        out := s.out ++ [{ mn := .mov, ops := [.direct addr, .reg 0 w], fam := .fam4, len := 3 }]
        pos := s.pos + 3 }

/-- ADD_RM_REG, SUB_RM_REG, CMP_RM_REG (41_arith, family 5): as family 1, with their own mnemonics. -/
def Obligations.ArithRmRegEmits : Prop :=
  ∀ (d : Direction) (w : Width) (reg : Index) (rm : RmField) (s : State), Running s →
    let after := fun (mn : Mnemonic) =>
      { s with
        out := s.out ++
          [{ mn := mn
             ops := if d = .toReg then [.reg reg w, rmOperand rm w] else [rmOperand rm w, .reg reg w]
             fam := .fam5
             len := 2 + dispLength rm }]
        pos := s.pos + (2 + dispLength rm) }
    exec (.addRmReg d w reg rm) s = .next (after .add) ∧
    exec (.subRmReg d w reg rm) s = .next (after .sub) ∧
    exec (.cmpRmReg d w reg rm) s = .next (after .cmp)

/-- ADD_RM_IMM, SUB_RM_IMM, CMP_RM_IMM (41_arith, family 6): register-or-memory destination, immediate tagged exactly when the
destination is no register, `sx` exactly when `s` and `w` are both 1 (decisions D13, D14, D24). -/
def Obligations.ArithRmImmEmits : Prop :=
  ∀ (sgn : Bool) (w : Width) (rm : RmField) (imm : ImmField) (s : State), Running s →
    let after := fun (mn : Mnemonic) =>
      { s with
        out := s.out ++
          [{ mn := mn
             ops := [rmOperand rm w, immOperand imm (!isReg (rmOperand rm w)) (sgn && decide (w = .wide))]
             fam := .fam6
             len := 2 + dispLength rm + immLength imm }]
        pos := s.pos + (2 + dispLength rm + immLength imm) }
    exec (.addRmImm sgn w rm imm) s = .next (after .add) ∧
    exec (.subRmImm sgn w rm imm) s = .next (after .sub) ∧
    exec (.cmpRmImm sgn w rm imm) s = .next (after .cmp)

/-- ADD_ACC_IMM, SUB_ACC_IMM, CMP_ACC_IMM (41_arith, family 7): the accumulator as destination, an untagged immediate. -/
def Obligations.ArithAccImmEmits : Prop :=
  ∀ (w : Width) (imm : ImmField) (s : State), Running s →
    let after := fun (mn : Mnemonic) =>
      { s with
        out := s.out ++
          [{ mn := mn, ops := [.reg 0 w, immOperand imm false false], fam := .fam7, len := 1 + immLength imm }]
        pos := s.pos + (1 + immLength imm) }
    exec (.addAccImm w imm) s = .next (after .add) ∧
    exec (.subAccImm w imm) s = .next (after .sub) ∧
    exec (.cmpAccImm w imm) s = .next (after .cmp)

/-- The 15 jumps (42_jcc, family 8): each emits its own mnemonic with the one operand `Rel`, the displacement byte read as a
signed 8-bit integer, and advances `pos` by 2: the jump is not followed. -/
def Obligations.JumpsEmit : Prop :=
  ∀ (rel : Byte) (s : State), Running s →
    let after := fun (mn : Mnemonic) =>
      { s with
        out := s.out ++ [{ mn := mn, ops := [.rel rel.toInt], fam := .fam8, len := 2 }]
        pos := s.pos + 2 }
    exec (.je rel) s = .next (after .je) ∧ exec (.jl rel) s = .next (after .jl) ∧
    exec (.jle rel) s = .next (after .jle) ∧ exec (.jb rel) s = .next (after .jb) ∧
    exec (.jbe rel) s = .next (after .jbe) ∧ exec (.jp rel) s = .next (after .jp) ∧
    exec (.jo rel) s = .next (after .jo) ∧ exec (.js rel) s = .next (after .js) ∧
    exec (.jne rel) s = .next (after .jne) ∧ exec (.jnl rel) s = .next (after .jnl) ∧
    exec (.jnle rel) s = .next (after .jnle) ∧ exec (.jnb rel) s = .next (after .jnb) ∧
    exec (.jnbe rel) s = .next (after .jnbe) ∧ exec (.jnp rel) s = .next (after .jnp) ∧
    exec (.jno rel) s = .next (after .jno)

/-- The frame of every instruction: the source, the reset level, `status` and `fault` are unchanged, every offset reads as
before, and `out` only grows at its end, by one record whose length is the advance of `pos`. No instruction stores. -/
def Obligations.ExecFrame : Prop :=
  ∀ (i : Instr) (s t : State), exec i s = .next t →
    t.src = s.src ∧ t.len = s.len ∧ t.resetHeld = s.resetHeld ∧ t.status = s.status ∧ t.fault = s.fault ∧
    (∀ a, byteAt t.src a = byteAt s.src a) ∧
    ∃ r, t.out = s.out ++ [r] ∧ t.pos = s.pos + r.len

/-! Decoding and encoding -/

/-- Words written out bit by bit from 30_encoding, section 1: one of each family decodes to its instruction. -/
def Obligations.WordsDecode : Prop :=
  decode [0b10001001, 0b11011001] = .ok (.movRmReg .toRm .wide 3 (.reg 1)) [] ∧
  decode [0b11000111, 0b10000101, 0b10000101, 0b00000011, 0b01011011, 0b00000001] =
    .ok (.movRmImm .wide 0 (.memDisp16 5 901) (.two 347)) [] ∧
  decode [0b10110001, 0b00000101] = .ok (.movRegImm .narrow 1 (.one 5)) [] ∧
  decode [0b10100001, 0b11111011, 0b00001001] = .ok (.movAccMem .wide 2555) [] ∧
  decode [0b00000000, 0b11000001] = .ok (.addRmReg .toRm .narrow 0 (.reg 1)) [] ∧
  decode [0b10000011, 0b00101111, 0b00100010] = .ok (.subRmImm true .wide (.mem 7) (.one 34)) [] ∧
  decode [0b00111100, 0b10000000] = .ok (.cmpAccImm .narrow (.one 128)) [] ∧
  decode [0b01110100, 0b00000101] = .ok (.je 5) []

/-- Decoding the bytes of a well-formed instruction, whatever follows them, gives that instruction back and leaves what
follows. -/
def Obligations.DecodeOfEncode : Prop :=
  ∀ (i : Instr) (rest : List Byte), i.wellFormed = true → decode (encode i ++ rest) = .ok i rest

/-- What the decoder accepts is well-formed, and its encoding is exactly the bytes consumed: no accepted byte is lost. -/
def Obligations.EncodeOfDecode : Prop :=
  ∀ (bytes : List Byte) (i : Instr) (rest : List Byte), decode bytes = .ok i rest →
    i.wellFormed = true ∧ bytes = encode i ++ rest

/-- A truncated instruction never decodes: every proper, non-empty part of the bytes of a well-formed instruction is a
ShortRead, which carries the addressing byte exactly when the family has one and it was there. -/
def Obligations.TruncatedIsShortRead : Prop :=
  ∀ (i : Instr) (op : Byte) (tail : List Byte) (k : Nat), i.wellFormed = true → encode i = op :: tail → k < tail.length →
    decode (op :: tail.take k) =
      .error { fault := .shortRead, ext := if addressed op then (tail.take k).head? else none }

/-- The addressing-mode decoder in full: all 32 combinations of `mod` and `rm`, the bytes each consumes, the operand each gives;
ShortRead is its only fault and `mod = 11` the only case in which the width matters. -/
def Obligations.AddressingModes : Prop :=
  ∀ (m : Byte) (bytes : List Byte),
    (modOf m = 0b11 → decodeRm m bytes = .ok (.reg (rmOf m)) bytes) ∧
    (modOf m = 0b00 → rmOf m ≠ 0b110 → decodeRm m bytes = .ok (.mem (rmOf m)) bytes) ∧
    (modOf m = 0b00 → rmOf m = 0b110 → ∀ lo hi, decodeRm m (lo :: hi :: bytes) = .ok (.direct (word16 lo hi)) bytes) ∧
    (modOf m = 0b01 → ∀ b, decodeRm m (b :: bytes) = .ok (.memDisp8 (rmOf m) b) bytes) ∧
    (modOf m = 0b10 → ∀ lo hi, decodeRm m (lo :: hi :: bytes) = .ok (.memDisp16 (rmOf m) (word16 lo hi)) bytes) ∧
    (bytes.length < dispLenOf m → decodeRm m bytes = .error { fault := .shortRead, ext := some m }) ∧
    (∀ (idx : Index) (w : Width), rmOperand (.reg idx) w = .reg idx w) ∧
    (∀ (rm : Index) (w : Width), rmOperand (.mem rm) w = .mem rm .noDisp) ∧
    (∀ (addr : Word) (w : Width), rmOperand (.direct addr) w = .direct addr) ∧
    (∀ (rm : Index) (v : Byte) (w : Width), rmOperand (.memDisp8 rm v) w = .mem rm (.disp8 v)) ∧
    (∀ (rm : Index) (v : Word) (w : Width), rmOperand (.memDisp16 rm v) w = .mem rm (.disp16 v))

/-- The immediate decoder in full: with two bytes the value is `lo | (hi << 8)`, with one it is that byte zero-extended
(decision D13); the flags are passed on; a missing byte is a ShortRead. -/
def Obligations.ImmediateDecoder : Prop :=
  ∀ (ext : Option Byte) (explicit sx : Bool) (bytes : List Byte),
    (∀ lo hi, ∃ f, decodeImm true ext (lo :: hi :: bytes) = .ok f bytes ∧
      immOperand f explicit sx = .imm (lo.zeroExtend 16 ||| (hi.zeroExtend 16 <<< 8)) .two explicit sx) ∧
    (∀ b, ∃ f, decodeImm false ext (b :: bytes) = .ok f bytes ∧
      immOperand f explicit sx = .imm (b.zeroExtend 16) .one explicit sx) ∧
    (∀ two, bytes.length < (if two then 2 else 1) →
      decodeImm two ext bytes = .error { fault := .shortRead, ext := ext })

/-- The width rule of families 2, 3 and 7: with `w` = 1 two immediate bytes are read and combined little-endian, with `w` = 0 one
byte; `w` is bit 0 of the opcode byte in families 2 and 7, bit 3 in family 3. That family 2 decodes with every value of its `reg`
field is the spec's own decision D25 (log entry 7). -/
def Obligations.WidthSelectsImmediateBytes : Prop :=
  ∀ (b0 b1 : Byte) (rest : List Byte),
    (∀ (m : Byte) (tail : List Byte) (rm : RmField), decodeRm m tail = .ok rm (b0 :: b1 :: rest) →
      decode (0xc6 :: m :: tail) = .ok (.movRmImm .narrow (regOf m) rm (.one b0)) (b1 :: rest) ∧
      decode (0xc7 :: m :: tail) = .ok (.movRmImm .wide (regOf m) rm (.two (word16 b0 b1))) rest) ∧
    (∀ reg : Index,
      decode ((0b10110#5 ++ reg : BitVec 8) :: b0 :: b1 :: rest) = .ok (.movRegImm .narrow reg (.one b0)) (b1 :: rest) ∧
      decode ((0b10111#5 ++ reg : BitVec 8) :: b0 :: b1 :: rest) = .ok (.movRegImm .wide reg (.two (word16 b0 b1))) rest) ∧
    (decode (0x04 :: b0 :: b1 :: rest) = .ok (.addAccImm .narrow (.one b0)) (b1 :: rest) ∧
      decode (0x05 :: b0 :: b1 :: rest) = .ok (.addAccImm .wide (.two (word16 b0 b1))) rest) ∧
    (decode (0x2c :: b0 :: b1 :: rest) = .ok (.subAccImm .narrow (.one b0)) (b1 :: rest) ∧
      decode (0x2d :: b0 :: b1 :: rest) = .ok (.subAccImm .wide (.two (word16 b0 b1))) rest) ∧
    (decode (0x3c :: b0 :: b1 :: rest) = .ok (.cmpAccImm .narrow (.one b0)) (b1 :: rest) ∧
      decode (0x3d :: b0 :: b1 :: rest) = .ok (.cmpAccImm .wide (.two (word16 b0 b1))) rest) ∧
    (word16 b0 b1).toNat = b0.toNat + 256 * b1.toNat

/-- The `sw` table of family 6: opcode byte 0x81 reads two immediate bytes, 0x80, 0x82 and 0x83 read one, and only 0x83
(`s` = 1, `w` = 1) sets `sx` in the record. That the value of one byte is that byte zero-extended, under 0x83 too, and that `sx`
carries the sign-extension request, is the spec's own decision D13 (log entry 14). -/
def Obligations.SwSelectsImmediateBytes : Prop :=
  ∀ (m b0 b1 : Byte) (tail rest : List Byte) (rm : RmField), unsupportedExt m = false →
    decodeRm m tail = .ok rm (b0 :: b1 :: rest) →
    ∃ i00 i01 i10 i11,
      decode (0x80 :: m :: tail) = .ok i00 (b1 :: rest) ∧ immediateOf i00 = some (b0.zeroExtend 16, .one, false) ∧
      decode (0x81 :: m :: tail) = .ok i01 rest ∧ immediateOf i01 = some (word16 b0 b1, .two, false) ∧
      decode (0x82 :: m :: tail) = .ok i10 (b1 :: rest) ∧ immediateOf i10 = some (b0.zeroExtend 16, .one, false) ∧
      decode (0x83 :: m :: tail) = .ok i11 (b1 :: rest) ∧ immediateOf i11 = some (b0.zeroExtend 16, .one, true)

/-- Every two-byte quantity is little-endian: whatever bytes decode to an instruction, the direct address or 16-bit displacement
it carries is `lo + 256 * hi` of the third and fourth byte, and the two-byte immediate or accumulator address it ends in is
`lo + 256 * hi` of its last two bytes; and one word of each kind, which does decode so. -/
def Obligations.LittleEndian : Prop :=
  (∀ (bytes : List Byte) (i : Instr) (rest : List Byte), decode bytes = .ok i rest →
    (∀ v, wordAfterAddressing i = some v → ∃ op m lo hi tail, bytes = op :: m :: lo :: hi :: tail ∧
      v.toNat = lo.toNat + 256 * hi.toNat) ∧
    (∀ v, wordAtEnd i = some v → ∃ front lo hi, bytes = front ++ lo :: hi :: rest ∧ v.toNat = lo.toNat + 256 * hi.toNat)) ∧
  ∀ (lo hi : Byte) (rest : List Byte), ∃ v : Word, v.toNat = lo.toNat + 256 * hi.toNat ∧
    decode (0x8b :: 0x06 :: lo :: hi :: rest) = .ok (.movRmReg .toReg .wide 0 (.direct v)) rest ∧
    decode (0x8b :: 0x80 :: lo :: hi :: rest) = .ok (.movRmReg .toReg .wide 0 (.memDisp16 0 v)) rest ∧
    decode (0xb8 :: lo :: hi :: rest) = .ok (.movRegImm .wide 0 (.two v)) rest ∧
    decode (0xa1 :: lo :: hi :: rest) = .ok (.movAccMem .wide v) rest ∧
    decode (0xa3 :: lo :: hi :: rest) = .ok (.movMemAcc .wide v) rest

/-- The opcode bytes that are UnsupportedOpcode with nothing else read are exactly the 193 of the listed ranges, whatever
follows. (0x79 is among them by decision D16; the other 14 jump bytes are by decision D15.) -/
def Obligations.UnsupportedOpcodeBytes : Prop :=
  (∀ (op : Byte) (tail : List Byte),
    decode (op :: tail) = .error { fault := .unsupportedOpcode, ext := none } ↔ unsupportedByte op = true) ∧
  ((List.range 256).filter fun n => unsupportedByte (BitVec.ofNat 8 n)).length = 193

/-- In family 6 the five extension values 001, 010, 011, 100, 110, and no others, are UnsupportedOpcode, reported with the
addressing byte and before any further byte is read (the order is decision D8). -/
def Obligations.UnsupportedExtensions : Prop :=
  ∀ (op m : Byte) (tail : List Byte), arithRmImmByte op = true →
    (decode (op :: m :: tail) = .error { fault := .unsupportedOpcode, ext := some m } ↔ unsupportedExt m = true)

/-- The length of an instruction is the table's function of the opcode byte and the addressing byte, and the record carries it;
an instruction is never shorter than 2 bytes. -/
def Obligations.LengthByFirstTwoBytes : Prop :=
  (∀ op : Byte, ∀ (i : Instr) (rest : List Byte), decode [op] ≠ .ok i rest) ∧
  ∀ (op m : Byte) (tail : List Byte) (i : Instr) (rest : List Byte), decode (op :: m :: tail) = .ok i rest →
    tail.length + 2 = rest.length + lengthFor op m ∧ ∃ r, recordOf i = some r ∧ r.len = lengthFor op m

/-! The step -/

/-- A step runs the decoded instruction: where the bytes at `pos` decode to `i`, `i` is well-formed and the step is exec of `i`
at that state, with nothing before or after it. -/
def Obligations.StepRunsDecoded : Prop :=
  ∀ (s : State) (i : Instr) (rest : List Byte), Running s → s.pos < s.len → decode (window s s.pos) = .ok i rest →
    i.wellFormed = true ∧ step s = exec i s

/-- The step is the spec's step over its own pseudocode: stuck unless running, the clean end at `pos = LEN`, else `Decode` by the
transcribed cursor rules and either emit the record or raise the fault (with the spec's decisions D5, D7 to D10, D13 to D16, D24
and D25). -/
def Obligations.StepRefinesPseudocode : Prop :=
  ∀ s : State, Running s → s.pos ≤ s.len →
    step s =
      if s.pos = s.len then .next { s with status := .done }
      else match refDecode s s.pos with
        | .ok r => .next { s with out := s.out ++ [r], pos := s.pos + r.len }
        | .error e => .next
            { s with
              status := .fault
              fault :=
                { cause := causeOf e.fault
                  offset := s.pos
                  opcode := byteAt s.src s.pos
                  extValid := e.ext.isSome
                  ext := e.ext.getD 0 } }

/-- Clean end: at `pos = LEN` the step sets `status` to DONE and touches nothing else; with an empty source the first step is a
clean end and `out` stays empty. -/
def Obligations.CleanEndStep : Prop :=
  (∀ s : State, Running s → s.pos = s.len → step s = .next { s with status := .done }) ∧
  ∀ s t : State, Running s → s.len = 0 → s.pos = 0 → s.out = [] → step s = .next t → t.status = .done ∧ t.out = []

/-- Raising a fault, in full: which fault (the table of causes in byte order), the five fields of the record, `status`, and
nothing else: `pos` and `out` are unchanged (the fields are decision D7, the order of the checks D8, precision D9; log entries 12
and 13). -/
def Obligations.FaultStep : Prop :=
  ∀ (s : State) (f : DecodeFault), Running s → s.pos < s.len →
    verdict (byteAt s.src s.pos) (byteAt s.src (s.pos + 1)) (s.len - s.pos) = some f →
    step s = .next
      { s with
        status := .fault
        fault :=
          { cause := match f with
              | .shortRead => .shortRead
              | .unsupportedOpcode => .unsupportedOpcode
            offset := s.pos
            opcode := byteAt s.src s.pos
            extValid := addressed (byteAt s.src s.pos) && decide (s.pos + 1 < s.len)
            ext := if addressed (byteAt s.src s.pos) && decide (s.pos + 1 < s.len) then byteAt s.src (s.pos + 1) else 0 } }

/-- Where the table of causes gives no fault, the step emits one record, of the length the table gives (the order of the
checks is decision D8, log entry 12). -/
def Obligations.NoFaultStep : Prop :=
  ∀ s : State, Running s → s.pos < s.len →
    verdict (byteAt s.src s.pos) (byteAt s.src (s.pos + 1)) (s.len - s.pos) = none →
    ∃ r, r.len = lengthFor (byteAt s.src s.pos) (byteAt s.src (s.pos + 1)) ∧ s.pos + r.len ≤ s.len ∧
      step s = .next { s with out := s.out ++ [r], pos := s.pos + r.len }

/-- FAULT is terminal: no step and no instruction leaves it or changes anything, and no action of the host but the release of
reset changes the fault record or the status. The name of the stuck state, and that exec stops as step does, is the model's choice
(log entry 9); so is what the two hold while reset is held, where the host reads nothing (log entry 3). -/
def Obligations.FaultIsTerminal : Prop :=
  (∀ s : State, s.resetHeld = false → s.status = .fault → step s = .fault .failed ∧ ∀ i, exec i s = .fault .failed) ∧
  ∀ (a : HostAction) (s t : State), s.status = .fault → a ≠ .releaseReset → hostAct a s = .next t →
    t.status = .fault ∧ t.fault = s.fault

/-- DONE is terminal, and while reset is held no step is taken, in any status (the status register is decision D6, reset is
decision D20, the names of the stuck states log entry 9). -/
def Obligations.NoStepWhenDoneOrHeld : Prop :=
  (∀ s : State, s.resetHeld = false → s.status = .done → step s = .fault .ended ∧ ∀ i, exec i s = .fault .ended) ∧
  ∀ s : State, s.resetHeld = true → step s = .fault .heldInReset ∧ ∀ i, exec i s = .fault .heldInReset

/-- The frame of a step: the source, `LEN` and the reset level never change; earlier records stand; `pos` stays or moves forward
by 2 to 6, together with exactly one new record of that length; outside a raise `fault` is unchanged. -/
def Obligations.StepFrame : Prop :=
  ∀ s t : State, step s = .next t →
    t.src = s.src ∧ t.len = s.len ∧ t.resetHeld = s.resetHeld ∧ (∀ a, byteAt t.src a = byteAt s.src a) ∧
    ((t.out = s.out ∧ t.pos = s.pos ∧ t.status ≠ .run) ∨
      ∃ r, t.out = s.out ++ [r] ∧ t.pos = s.pos + r.len ∧ 2 ≤ r.len ∧ r.len ≤ 6 ∧ t.pos ≤ t.len ∧ t.status = .run) ∧
    (t.status ≠ .fault → t.fault = s.fault)

/-- There is no hidden state: two running states whose sources agree on the six bytes from their own cursors on (both bytes or
neither exist) emit the same record, or raise the same fault, whatever else they hold. -/
def Obligations.NoHiddenState : Prop :=
  ∀ s1 s2 : State, Running s1 → Running s2 → s1.pos < s1.len → s2.pos < s2.len →
    (∀ k, k < 6 → (s1.pos + k < s1.len ↔ s2.pos + k < s2.len)) →
    (∀ k, k < 6 → s1.pos + k < s1.len → byteAt s1.src (s1.pos + k) = byteAt s2.src (s2.pos + k)) →
    (∃ r, step s1 = .next { s1 with out := s1.out ++ [r], pos := s1.pos + r.len } ∧
          step s2 = .next { s2 with out := s2.out ++ [r], pos := s2.pos + r.len }) ∨
    (∃ f : FaultRecord, step s1 = .next { s1 with fault := { f with offset := s1.pos }, status := .fault } ∧
          step s2 = .next { s2 with fault := { f with offset := s2.pos }, status := .fault })

/-- DEC never sets the reserved cause SourceUnavailable (decision D26): no step and no instruction does. -/
def Obligations.SourceUnavailableNeverRaised : Prop :=
  ∀ s t : State, (step s = .next t ∨ ∃ i, exec i s = .next t) → s.fault.cause ≠ .sourceUnavailable →
    t.fault.cause ≠ .sourceUnavailable

/-- The codes of `status` (decision D6) and of `fault.cause` (decision D7). -/
def Obligations.RegisterCodes : Prop :=
  Status.code .run = 0b00 ∧ Status.code .done = 0b01 ∧ Status.code .fault = 0b10 ∧ (∀ x : Status, x.code ≠ 0b11) ∧
  Cause.code .none = 0 ∧ Cause.code .shortRead = 1 ∧ Cause.code .unsupportedOpcode = 2 ∧ Cause.code .sourceUnavailable = 3

/-! Invariants and runs -/

/-- The invariant holds after reset (the reset values are decision D20; the empty source is log entry 2). -/
def Obligations.InvAtReset : Prop := Inv State.reset ∧ Faithful State.reset

/-- Every step keeps the invariant: canonical source, `pos <= LEN`, lengths of the records sum to `pos`, legal records, the fault
record at its reset value outside FAULT and that of the instruction at `pos` in FAULT, `pos = LEN` at DONE. -/
def Obligations.InvKept : Prop := ∀ s t : State, Inv s → step s = .next t → Inv t

/-- Every step keeps the listing: `out` is what the source decodes to, instruction after instruction, from `START` to `pos`, with
no placeholder and no skipped byte. -/
def Obligations.ListingKept : Prop := ∀ s t : State, Faithful s → step s = .next t → Faithful t

/-- A run ends: from any running state that meets the invariant and the listing, within `(LEN - pos) / 2 + 1` steps it is at DONE
with `pos = LEN`, or at FAULT with `pos = fault.at < LEN`; the lengths of the records sum to `pos` and `out` lists the source. The bound is the spec's own inference
of 10_state R21 and 70_reset_and_hazards R134, here from any state of a run; `pos = fault.at` is its decision D9 (log entry 13). -/
def Obligations.RunEnds : Prop :=
  ∀ s : State, Running s → Inv s → Faithful s →
    ∃ k t, k ≤ (s.len - s.pos) / 2 + 1 ∧ Host.Core.run Sys2Proof.core k s = .next t ∧
      t.src = s.src ∧ t.len = s.len ∧ Faithful t ∧ totalLength t.out = t.pos ∧
      ((t.status = .done ∧ t.pos = t.len) ∨ (t.status = .fault ∧ t.pos = t.fault.offset ∧ t.pos < t.len))

/-- The open cursor width: in a build with `2 ^ POS_WIDTH > LEN`, whatever the width, `pos` and `fault.at` fit before and after
every step (`POS_WIDTH` is OPEN, decision D3, log entry 6). -/
def Obligations.CursorFitsWidth : Prop :=
  ∀ s t : State, Inv s → s.len < 2 ^ Config.posWidth → step s = .next t →
    s.pos < 2 ^ Config.posWidth ∧ s.fault.offset < 2 ^ Config.posWidth ∧
    t.pos < 2 ^ Config.posWidth ∧ t.fault.offset < 2 ^ Config.posWidth

/-! Memory and the host -/

/-- `MemRead`: defined exactly where all `n` bytes exist, in ascending order, and a step changes no read (decision D4). -/
def Obligations.MemReadDefined : Prop :=
  ∀ (s : State) (addr n : Nat),
    (addr + n ≤ s.len → ∃ bytes, memRead s addr n = some bytes ∧ bytes.length = n ∧
      ∀ k, k < n → bytes[k]? = some (byteAt s.src (addr + k))) ∧
    (s.len < addr + n → memRead s addr n = none) ∧
    ∀ t, step s = .next t → memRead t addr n = memRead s addr n

/-- Two canonical sources of one length that read the same at every offset are equal data (the model's representation, log
entry 1). -/
def Obligations.CanonicalSourcesEqual : Prop :=
  ∀ s t : State, sourceWf s = true → sourceWf t = true → s.len = t.len →
    (∀ a, a < s.len → byteAt s.src a = byteAt t.src a) → s.src = t.src

/-- The host's load (decisions D2, D4): only while reset is held; then `LEN` is the number of bytes, every offset reads the byte
placed there, the source is canonical, and nothing else changes. The refusal outside reset (log entry 3) and the canonical form
of what is placed (log entry 1) are the model's choice: the spec only calls a change of the source in a run outside itself. -/
def Obligations.LoadPlacesSource : Prop :=
  ∀ (bytes : List Byte) (s : State),
    (s.resetHeld = false → hostAct (.load bytes) s = .refused .sourceChangeOutsideReset) ∧
    (s.resetHeld = true → ∃ src, hostAct (.load bytes) s = .next { s with src := src, len := bytes.length } ∧
      sourceWf { s with src := src, len := bytes.length } = true ∧ ∀ k, k < bytes.length → bytes[k]? = some (byteAt src k))

/-- The reset values (decision D20), and what the host's release of reset leaves from any state in reset: the same values, the
source kept; so the invariant and the listing hold there (log entries 2 and 3). -/
def Obligations.ResetValues : Prop :=
  State.reset.pos = 0 ∧ State.reset.status = .run ∧ State.reset.fault.cause.code = 0 ∧ State.reset.fault.offset = 0 ∧
  State.reset.fault.opcode = 0 ∧ State.reset.fault.extValid = false ∧ State.reset.fault.ext = 0 ∧ State.reset.out = [] ∧
  State.reset.resetHeld = false ∧
  ∀ s : State, s.resetHeld = true → ∃ t, hostAct .releaseReset s = .next t ∧
    t = { State.reset with src := s.src, len := s.len } ∧ (sourceWf s = true → Inv t ∧ Faithful t)

/-- Reset may be asserted in any state; it leaves the source and `LEN` as they were and from then on the host reads nothing of DEC
(decisions D2, D20). Out of reset the host reads `out`, `pos`, `status` and the line stream, and `fault` only after the run has
ended. That the host cannot release a reset it does not hold is the model's choice (log entry 3), and so is that `pos` is readable
from the release on (log entry 16). -/
def Obligations.HostPortRules : Prop :=
  (∀ s : State, ∃ t, hostAct .assertReset s = .next t ∧ t.resetHeld = true ∧ t.src = s.src ∧ t.len = s.len ∧ hostView t = none) ∧
  (∀ s : State, s.resetHeld = false → hostAct .releaseReset s = .refused .resetNotHeld) ∧
  ∀ s : State, s.resetHeld = false → ∃ v, hostView s = some v ∧ v.out = s.out ∧ v.pos = s.pos ∧ v.status = s.status.code ∧
    v.lines = header :: s.out.map render ∧
    (s.status = .run → v.fault = none ∧ v.faultCode = none) ∧
    (s.status ≠ .run → v.fault = some s.fault ∧ v.faultCode = some s.fault.cause.code)

/-! The text of a record -/

/-- The 16 register designators in index order; the accumulator is index 0. -/
def Obligations.RegisterNames : Prop :=
  ((List.range 8).map fun k => registerName (BitVec.ofNat 3 k) .wide) = ["ax", "cx", "dx", "bx", "sp", "bp", "si", "di"] ∧
  ((List.range 8).map fun k => registerName (BitVec.ofNat 3 k) .narrow) = ["al", "cl", "dl", "bl", "ah", "ch", "dh", "bh"] ∧
  renderOperand (accumulator .wide) = "ax" ∧ renderOperand (accumulator .narrow) = "al" ∧
  ∀ (idx : Index) (w : Width), renderOperand (.reg idx w) = registerName idx w

/-- The base expressions, and the quirk: `rm = 7` renders exactly as `rm = 0` with every displacement, though the operands differ
(entry 6 is `bp` by decision D11, log entry 8). -/
def Obligations.BaseExpressions : Prop :=
  ((List.range 8).map fun k => baseExpression (BitVec.ofNat 3 k)) =
    ["bx+si", "bx+di", "bp+si", "bp+di", "si", "di", "bp", "bx+si"] ∧
  ∀ d : Disp, renderOperand (.mem 7 d) = renderOperand (.mem 0 d) ∧ Operand.mem 7 d ≠ Operand.mem 0 d

/-- A displacement is kept as read: a zero displacement is another operand and another text than none; an 8-bit and a 16-bit
displacement of the same number are different operands of different lengths with the same text. -/
def Obligations.DisplacementKept : Prop :=
  (∀ (rm : Index) (w : Width),
    rmOperand (.memDisp8 rm 0) w = .mem rm (.disp8 0) ∧ rmOperand (.memDisp16 rm 0) w = .mem rm (.disp16 0) ∧
    rmOperand (.memDisp8 rm 0) w ≠ rmOperand (.mem rm) w ∧ rmOperand (.memDisp16 rm 0) w ≠ rmOperand (.mem rm) w ∧
    renderOperand (.mem rm (.disp8 0)) ≠ renderOperand (.mem rm .noDisp) ∧
    renderOperand (.mem rm (.disp16 0)) ≠ renderOperand (.mem rm .noDisp)) ∧
  ∀ (rm : Index) (v : Byte) (w : Width),
    renderOperand (.mem rm (.disp8 v)) = renderOperand (.mem rm (.disp16 (v.zeroExtend 16))) ∧
    rmOperand (.memDisp8 rm v) w ≠ rmOperand (.memDisp16 rm (v.zeroExtend 16)) w ∧
    dispLength (.memDisp8 rm v) ≠ dispLength (.memDisp16 rm (v.zeroExtend 16))

/-- The text of memory, direct and immediate operands (decisions D13, D14, D18, D19): brackets, `+` and an unsigned decimal
displacement; the tag by the number of immediate bytes; `sx` has no effect. -/
def Obligations.OperandText : Prop :=
  (∀ rm : Index, renderOperand (.mem rm .noDisp) = "[" ++ baseExpression rm ++ "]") ∧
  (∀ (rm : Index) (v : Byte), renderOperand (.mem rm (.disp8 v)) = "[" ++ baseExpression rm ++ "+" ++ dec v.toNat ++ "]") ∧
  (∀ (rm : Index) (v : Word), renderOperand (.mem rm (.disp16 v)) = "[" ++ baseExpression rm ++ "+" ++ dec v.toNat ++ "]") ∧
  (∀ addr : Word, renderOperand (.direct addr) = "[" ++ dec addr.toNat ++ "]") ∧
  ∀ (v : Word) (n : ImmBytes) (sx : Bool),
    renderOperand (.imm v n false sx) = dec v.toNat ∧
    renderOperand (.imm v .one true sx) = "byte " ++ dec v.toNat ∧
    renderOperand (.imm v .two true sx) = "word " ++ dec v.toNat

/-- A jump displacement is rendered as a signed decimal: a minus sign where negative, no plus sign; its range is -128 to 127. -/
def Obligations.JumpText : Prop :=
  (∀ n : Nat, renderOperand (.rel n) = dec n ∧ (0 < n → renderOperand (.rel (-(n : Int))) = "-" ++ dec n)) ∧
  ∀ b : Byte, -128 ≤ signed8 b ∧ signed8 b ≤ 127 ∧ signed8 b = b.toInt

/-- `Dec(n)` is the decimal numeral of `n`: digits below 10 that spell `n`, at least one, and no leading zero but for `0` itself
(decision D18). -/
def Obligations.DecimalNumerals : Prop :=
  ∀ n : Nat, ∃ ds : List Nat, ds ≠ [] ∧ (∀ d ∈ ds, d < 10) ∧ dec n = String.ofList (ds.map fun d => Char.ofNat (48 + d)) ∧
    ds.foldl (fun acc d => 10 * acc + d) 0 = n ∧ (ds.head? = some 0 → n = 0 ∧ ds = [0])

/-- A line: the lowercase mnemonic, one space, the operands destination first, `, ` between two (decision D18); the spelling of the
19 mnemonics; and the four worked examples of the source, the third corrected by conflict C2. -/
def Obligations.LineText : Prop :=
  ([.mov, .add, .sub, .cmp, .je, .jl, .jle, .jb, .jbe, .jp, .jo, .js, .jne, .jnl, .jnle, .jnb, .jnbe, .jnp, .jno] : List Mnemonic).map
      mnemonicText =
    ["mov", "add", "sub", "cmp", "je", "jl", "jle", "jb", "jbe", "jp", "jo", "js", "jne", "jnl", "jnle", "jnb", "jnbe", "jnp",
      "jno"] ∧
  (∀ (mn : Mnemonic) (a b : Operand) (f : Family) (n : Nat),
    render { mn := mn, ops := [a, b], fam := f, len := n } =
      mnemonicText mn ++ " " ++ renderOperand a ++ ", " ++ renderOperand b) ∧
  (∀ (mn : Mnemonic) (a : Operand) (f : Family) (n : Nat),
    render { mn := mn, ops := [a], fam := f, len := n } = mnemonicText mn ++ " " ++ renderOperand a) ∧
  (recordOf (.movRmReg .toRm .wide 3 (.reg 1))).map render = some "mov cx, bx" ∧
  (recordOf (.movRegImm .narrow 1 (.one 5))).map render = some "mov cl, 5" ∧
  (recordOf (.addRmReg .toRm .narrow 0 (.reg 1))).map render = some "add cl, al" ∧
  (recordOf (.je 5)).map render = some "je 5"

/-- The line stream: the header line (`bits 16` by decision D17, log entry 5) present from reset on, then one line per record in
order; a step never changes a line already there. -/
def Obligations.LineStream : Prop :=
  lines State.reset = ["bits 16"] ∧
  (∀ s : State, lines s = header :: s.out.map render) ∧
  ∀ s t : State, step s = .next t → lines s <+: lines t

/-- Redundant encodings: the `reg` field of family 2 has no effect (decision D25); opcode bytes 0x80 and 0x82 decode alike; with
two registers the two directions give one record. -/
def Obligations.RedundantEncodings : Prop :=
  (∀ (w : Width) (u1 u2 : Index) (rm : RmField) (imm : ImmField) (s : State),
    exec (.movRmImm w u1 rm imm) s = exec (.movRmImm w u2 rm imm) s) ∧
  (∀ (rm : RmField) (imm : ImmField) (s : State),
    exec (.addRmImm true .narrow rm imm) s = exec (.addRmImm false .narrow rm imm) s ∧
    exec (.subRmImm true .narrow rm imm) s = exec (.subRmImm false .narrow rm imm) s ∧
    exec (.cmpRmImm true .narrow rm imm) s = exec (.cmpRmImm false .narrow rm imm) s) ∧
  ∀ (w : Width) (a b : Index) (s : State),
    exec (.movRmReg .toRm w a (.reg b)) s = exec (.movRmReg .toReg w b (.reg a)) s ∧
    exec (.addRmReg .toRm w a (.reg b)) s = exec (.addRmReg .toReg w b (.reg a)) s ∧
    exec (.subRmReg .toRm w a (.reg b)) s = exec (.subRmReg .toReg w b (.reg a)) s ∧
    exec (.cmpRmReg .toRm w a (.reg b)) s = exec (.cmpRmReg .toReg w b (.reg a)) s
end

