-- ==== Sys2Proof/Laws/Decode.lean ====
section
/-! SUPPORT. What the parts of the decoder can do: the bind, the two reads, the bit fields of an encoded byte. -/

namespace Sys2Proof

@[simp] theorem Decoded.andThen_ok_eq {α β : Type} (a : α) (rest : List Byte) (f : α → List Byte → Decoded β) :
    (Decoded.ok a rest).andThen f = f a rest := rfl

@[simp] theorem Decoded.andThen_error {α β : Type} (e : DecodeError) (f : α → List Byte → Decoded β) :
    (Decoded.error e : Decoded α).andThen f = .error e := rfl

/-- A bind that answers a value: its first part answered one, and the second went on from it. -/
theorem Decoded.andThen_ok {α β : Type} {x : Decoded α} {f : α → List Byte → Decoded β} {b : β} {rest : List Byte}
    (h : x.andThen f = .ok b rest) : ∃ a mid, x = .ok a mid ∧ f a mid = .ok b rest := by
  cases x with
  | ok a mid => exact ⟨a, mid, rfl, h⟩
  | error e => cases h

@[simp] theorem take1_cons (ext : Option Byte) (b : Byte) (rest : List Byte) : take1 ext (b :: rest) = .ok b rest := rfl

@[simp] theorem take1_nil (ext : Option Byte) : take1 ext [] = .error { fault := .shortRead, ext := ext } := rfl

@[simp] theorem take2_cons (ext : Option Byte) (lo hi : Byte) (rest : List Byte) :
    take2 ext (lo :: hi :: rest) = .ok (word16 lo hi) rest := rfl

@[simp] theorem take2_nil (ext : Option Byte) : take2 ext [] = .error { fault := .shortRead, ext := ext } := rfl

@[simp] theorem take2_single (ext : Option Byte) (b : Byte) : take2 ext [b] = .error { fault := .shortRead, ext := ext } := rfl

/-- A read of one byte that answers: that byte stood first. -/
theorem take1_ok {ext : Option Byte} {bytes rest : List Byte} {b : Byte} (h : take1 ext bytes = .ok b rest) :
    bytes = b :: rest := by
  cases bytes with
  | nil => cases h
  | cons c t => cases h; rfl

/-- A read of two bytes that answers: they stood first, low byte first. -/
theorem take2_ok {ext : Option Byte} {bytes rest : List Byte} {v : Word} (h : take2 ext bytes = .ok v rest) :
    ∃ lo hi, bytes = lo :: hi :: rest ∧ v = word16 lo hi := by
  match bytes with
  | [] => cases h
  | [_] => cases h
  | lo :: hi :: t => cases h; exact ⟨lo, hi, rfl, rfl⟩

@[simp] theorem lowByte_word16 (lo hi : Byte) : lowByte (word16 lo hi) = lo := by
  ext i h
  simp [lowByte, word16, h, show i < 16 by omega]

@[simp] theorem highByte_word16 (lo hi : Byte) : highByte (word16 lo hi) = hi := by
  ext i h
  simp [highByte, word16, h, show 8 + i < 16 by omega]

@[simp] theorem word16_lowByte_highByte (v : Word) : word16 (lowByte v) (highByte v) = v := by
  ext i h
  simp only [lowByte, highByte, word16, BitVec.zeroExtend, BitVec.getElem_or, BitVec.getElem_shiftLeft, BitVec.getElem_setWidth,
    BitVec.getLsbD_extractLsb']
  by_cases h8 : i < 8
  · simp [h8, BitVec.getLsbD_eq_getElem h]
  · simp [h8, show i - 8 < 8 by omega, show 8 + (i - 8) = i by omega, BitVec.getLsbD_eq_getElem h]

/-- The fields of an addressing byte are the three parts it was built from. -/
theorem addressing_fields : ∀ (m : BitVec 2) (r i : Index),
    modOf (m ++ r ++ i : BitVec 8) = m ∧ regOf (m ++ r ++ i : BitVec 8) = r ∧ rmOf (m ++ r ++ i : BitVec 8) = i := by decide

/-- An addressing byte is built from its three fields. -/
theorem addressing_split : ∀ m : Byte, (modOf m ++ regOf m ++ rmOf m : BitVec 8) = m := by decide

theorem regOf_addressingByte (reg : Index) (f : RmField) : regOf (addressingByte reg f) = reg := by
  cases f <;> exact (addressing_fields _ _ _).2.1

/-- The two bytes of a 16-bit quantity are read back as that quantity. -/
theorem take2_encodeWord (ext : Option Byte) (v : Word) (rest : List Byte) :
    take2 ext (encodeWord v ++ rest) = .ok v rest := by
  simp [encodeWord]

/-- The addressing-mode decoder reads back a field and leaves what follows it. -/
theorem decodeRm_encode (reg : Index) (f : RmField) (h : f.wellFormed = true) (rest : List Byte) :
    decodeRm (addressingByte reg f) (encodeDisp f ++ rest) = .ok f rest := by
  cases f <;> simp_all [decodeRm, addressingByte, encodeDisp, addressing_fields, RmField.wellFormed, take2_encodeWord]

/-- The immediate decoder reads back an immediate of the width asked for. -/
theorem decodeImm_encode (two : Bool) (ext : Option Byte) (imm : ImmField) (h : imm.matches two = true)
    (rest : List Byte) : decodeImm two ext (encodeImm imm ++ rest) = .ok imm rest := by
  cases imm <;> cases two <;> simp_all [decodeImm, encodeImm, ImmField.matches, take2_encodeWord]

/-- All the addressing-mode decoder can answer: a field that exists, whose encoding is what was consumed. -/
theorem decodeRm_ok {m : Byte} {bytes rest : List Byte} {f : RmField} (h : decodeRm m bytes = .ok f rest) :
    f.wellFormed = true ∧ bytes = encodeDisp f ++ rest ∧ addressingByte (regOf m) f = m := by
  have hm := addressing_split m
  unfold decodeRm at h
  split at h
  · next h1 => cases h; exact ⟨rfl, rfl, by rw [h1] at hm; exact hm⟩
  next h1 =>
  split at h
  · next h2 =>
    split at h
    · next h3 =>
      obtain ⟨v, mid, h4, h5⟩ := Decoded.andThen_ok h
      cases h5
      obtain ⟨lo, hi, rfl, rfl⟩ := take2_ok h4
      exact ⟨rfl, by simp [encodeDisp, encodeWord], by rw [h2, h3] at hm; exact hm⟩
    · next h3 =>
      cases h
      exact ⟨by simpa [RmField.wellFormed] using show ¬ rmOf m = 6#3 from h3, rfl, by rw [h2] at hm; exact hm⟩
  next h2 =>
  split at h
  · next h3 =>
    obtain ⟨v, mid, h4, h5⟩ := Decoded.andThen_ok h
    cases h5
    obtain rfl := take1_ok h4
    exact ⟨rfl, rfl, by rw [h3] at hm; exact hm⟩
  · next h3 =>
    have h10 : modOf m = 0b10 := by revert h1 h2 h3; generalize modOf m = x; revert x; decide
    obtain ⟨v, mid, h4, h5⟩ := Decoded.andThen_ok h
    cases h5
    obtain ⟨lo, hi, rfl, rfl⟩ := take2_ok h4
    exact ⟨rfl, by simp [encodeDisp, encodeWord], by rw [h10] at hm; exact hm⟩

/-- All the immediate decoder can answer: an immediate of the width asked for, whose encoding is what was consumed. -/
theorem decodeImm_ok {two : Bool} {ext : Option Byte} {bytes rest : List Byte} {imm : ImmField}
    (h : decodeImm two ext bytes = .ok imm rest) : imm.matches two = true ∧ bytes = encodeImm imm ++ rest := by
  unfold decodeImm at h
  split at h
  · next h1 =>
    obtain ⟨v, mid, h4, h5⟩ := Decoded.andThen_ok h
    cases h5
    obtain ⟨lo, hi, rfl, rfl⟩ := take2_ok h4
    simp [encodeImm, encodeWord, ImmField.matches, h1]
  · next h1 =>
    obtain ⟨v, mid, h4, h5⟩ := Decoded.andThen_ok h
    cases h5
    obtain rfl := take1_ok h4
    simp [encodeImm, ImmField.matches, h1]

/-- The body of families 1 and 5 answers only the instruction whose encoding follows the opcode byte. -/
theorem decodeRmReg_ok {mk : Direction → Width → Index → RmField → Instr} {op : Byte} {bytes rest : List Byte} {i : Instr}
    (h : decodeRmReg mk op bytes = .ok i rest) :
    ∃ reg rm, i = mk (directionOf op) (widthAt op 0) reg rm ∧ rm.wellFormed = true ∧
      bytes = addressingByte reg rm :: (encodeDisp rm ++ rest) := by
  obtain ⟨m, mid, h1, h⟩ := Decoded.andThen_ok h
  obtain ⟨rm, mid2, h2, h⟩ := Decoded.andThen_ok h
  cases h
  obtain rfl := take1_ok h1
  obtain ⟨w, rfl, e⟩ := decodeRm_ok h2
  exact ⟨regOf m, rm, rfl, w, by rw [e]⟩

theorem encodeDisp_length (f : RmField) : (encodeDisp f).length = dispLength f := by cases f <;> rfl

theorem encodeImm_length (imm : ImmField) : (encodeImm imm).length = immLength imm := by cases imm <;> rfl

/-- The immediate decoder with too few bytes: a ShortRead. -/
theorem decodeImm_short {two : Bool} {ext : Option Byte} {bytes : List Byte} (h : bytes.length < if two then 2 else 1) :
    decodeImm two ext bytes = .error { fault := .shortRead, ext := ext } := by
  cases two <;> match bytes with
    | [] => rfl
    | [_] => first | rfl | simp at h
    | _ :: _ :: _ => simp at h

/-- The immediate decoder with enough bytes: an answer that leaves the others. -/
theorem decodeImm_long {two : Bool} {ext : Option Byte} {bytes : List Byte} (h : (if two then 2 else 1) ≤ bytes.length) :
    ∃ imm rest, decodeImm two ext bytes = .ok imm rest ∧ rest.length + (if two then 2 else 1) = bytes.length := by
  cases two <;> match bytes with
    | [] => simp at h
    | [_] => first | exact ⟨_, _, rfl, rfl⟩ | simp at h
    | _ :: _ :: _ => exact ⟨_, _, rfl, rfl⟩

end Sys2Proof
end

