-- ==== Sys2Proof/Laws/Ops.lean ====
section
/-! SUPPORT. What each shared operation can do: the guard of a step, emitting a record, the window of bytes, one step. -/

namespace Sys2Proof.Machine

open Sys2Proof.Safety

theorem whenRunning_of_running {s : State} (h : Running s) (o : Host.Outcome State Fault Refusal) : whenRunning s o = o := by
  simp [whenRunning, h.1, h.2]

/-- The guard answers a next state only where a step is enabled. -/
theorem whenRunning_next {s t : State} {o : Host.Outcome State Fault Refusal} (h : whenRunning s o = .next t) :
    Running s ∧ o = .next t := by
  unfold whenRunning at h
  split at h
  · cases h
  · next hr =>
    split at h
    · next hs => exact ⟨⟨by simpa using hr, hs⟩, h⟩
    · cases h
    · cases h

theorem emit_of_running {s : State} (h : Running s) (r : Record) : emit r s = .next (emitted r s) :=
  whenRunning_of_running h _

/-- Emitting answers a next state only where a step is enabled, and then the record is appended and `pos` advanced. -/
theorem emit_next {r : Record} {s t : State} (h : emit r s = .next t) : Running s ∧ t = emitted r s := by
  obtain ⟨hr, h⟩ := whenRunning_next h
  cases h
  exact ⟨hr, rfl⟩

/-- The window is the bytes at `p`, `p+1`, …, as many of the six as exist. -/
theorem window_eq (s : State) (p : Nat) :
    window s p = (List.range (min Config.maxLength (s.len - p))).map fun k => byteAt s.src (p + k) := by
  unfold window memRead
  split
  · rfl
  · next h =>
    have : s.len - p = 0 := by
      by_contra hne
      exact h (by omega)
    simp [this]

theorem window_length (s : State) (p : Nat) : (window s p).length = min 6 (s.len - p) := by
  simp [window_eq, Config.maxLength]

theorem window_getElem? (s : State) (p k : Nat) (h : k < min 6 (s.len - p)) :
    (window s p)[k]? = some (byteAt s.src (p + k)) := by
  simp only [window_eq, List.getElem?_map, Config.maxLength]
  rw [List.getElem?_range h]
  rfl

/-- Two states with equal bytes where the window looks have equal windows. -/
theorem window_congr {s t : State} (hs : t.src = s.src) (hl : t.len = s.len) (p : Nat) : window t p = window s p := by
  simp [window_eq, hs, hl]

/-- All a step can do, where it answers a next state. -/
theorem step_cases {s t : State} (h : step s = .next t) :
    Running s ∧
      ((s.pos = s.len ∧ t = cleanEnd s) ∨
       (s.pos < s.len ∧ ∃ i rest, decode (window s s.pos) = .ok i rest ∧ exec i s = .next t) ∨
       (s.pos < s.len ∧ ∃ e, decode (window s s.pos) = .error e ∧ t = raiseFault e s)) := by
  obtain ⟨hr, h⟩ := whenRunning_next (show whenRunning s _ = .next t from h)
  refine ⟨hr, ?_⟩
  split at h
  · next heq => cases h; exact .inl ⟨heq, rfl⟩
  · split at h
    · cases h
    · have hlt : s.pos < s.len := by omega
      split at h
      · next i rest hd => exact .inr (.inl ⟨hlt, i, rest, hd, h⟩)
      · next e hd => cases h; exact .inr (.inr ⟨hlt, e, hd, rfl⟩)

/-- The step at an enabled state inside the source. -/
theorem step_inside {s : State} (hr : Running s) (hlt : s.pos < s.len) :
    step s = match decode (window s s.pos) with
      | .ok i _ => exec i s
      | .error e => .next (raiseFault e s) :=
  (whenRunning_of_running hr _).trans ((if_neg (by omega)).trans (if_neg (by omega)))

/-- A run that goes on: one step, then the rest of the run. -/
theorem run_of_step (M : Host.Core) {k : Nat} {s s' : M.State} (h : M.step s = .next s') : M.run (k + 1) s = M.run k s' := by
  rw [Host.Core.run, h]

end Sys2Proof.Machine
end

