-- ==== Sys2Proof/Laws/Meaning.lean ====
section
/-! SUPPORT. What every instruction does, said once: it emits its record. What the addressing-mode decoder needs, by the table of
displacement lengths; and what the operand forms and the record shapes are made of. -/

namespace Sys2Proof.Machine

open Sys2Proof.Safety

/-- Every meaning is an emit of one record, the same in every state. -/
theorem exec_emit (i : Instr) : ∃ r, ∀ s, exec i s = emit r s := by
  cases i <;> exact ⟨_, fun s => rfl⟩

theorem recordOf_of_emit {i : Instr} {r : Record} (h : ∀ s, exec i s = emit r s) : recordOf i = some r := by
  unfold recordOf
  rw [h, emit_of_running (s := State.reset) ⟨rfl, rfl⟩]
  rfl

/-- Every instruction has a record, and emits it. -/
theorem exec_recordOf (i : Instr) : ∃ r, recordOf i = some r ∧ ∀ s, exec i s = emit r s := by
  obtain ⟨r, h⟩ := exec_emit i
  exact ⟨r, recordOf_of_emit h, h⟩

/-- The operand of a field is a register, a memory operand or a direct address, and a register exactly without the tag. -/
theorem isRm_rmOperand (f : RmField) (w : Width) : isRm (rmOperand f w) = true := by cases f <;> rfl

theorem isReg_rmOperand (f : RmField) (w : Width) : isReg (rmOperand f w) = !explicitTag f := by cases f <;> rfl

/-- The operand of a field that exists is legal. -/
theorem operandLegal_rmOperand {f : RmField} (w : Width) (h : f.wellFormed = true) : operandLegal (rmOperand f w) = true := by
  cases f <;> simp_all [rmOperand, operandLegal, RmField.wellFormed]

/-- A one-byte immediate fits its slot. -/
theorem operandLegal_immOperand (imm : ImmField) (explicit sx : Bool) : operandLegal (immOperand imm explicit sx) = true := by
  cases imm with
  | one b => have := b.isLt; simp [immOperand, operandLegal]; omega
  | two v => rfl

theorem signed8_eq_toInt : ∀ b : Byte, signed8 b = b.toInt := by decide

theorem signed8_bounds : ∀ b : Byte, -128 ≤ signed8 b ∧ signed8 b ≤ 127 := by decide

theorem dispLength_le (f : RmField) : dispLength f ≤ 2 := by cases f <;> simp [dispLength]

theorem immLength_cases (imm : ImmField) : immLength imm = 1 ∨ immLength imm = 2 := by cases imm <;> simp [immLength]

/-- `mod` has four values. -/
theorem mod_cases : ∀ x : BitVec 2, x = 0b11 ∨ x = 0b00 ∨ x = 0b01 ∨ x = 0b10 := by decide

/-- The addressing-mode decoder with enough bytes: an answer that leaves the others. -/
theorem decodeRm_long {m : Byte} {bytes : List Byte} (h : dispLenOf m ≤ bytes.length) :
    ∃ f rest, decodeRm m bytes = .ok f rest ∧ rest.length + dispLenOf m = bytes.length := by
  unfold dispLenOf at h ⊢
  unfold decodeRm
  rcases mod_cases (modOf m) with e | e | e | e <;> simp [e] at h ⊢
  · by_cases h3 : rmOf m = 6#3
    · match bytes with
      | [] => simp [h3] at h
      | [_] => simp [h3] at h
      | _ :: _ :: _ => simp [h3]
    · simp [h3]
  · match bytes with
    | [] => simp at h
    | [_] => simp
    | _ :: _ :: _ => simp
  · match bytes with
    | [] => simp at h
    | [_] => simp at h
    | _ :: _ :: _ => simp

/-- The displacement length of a field is that of its addressing byte. -/
theorem dispLenOf_addressingByte (reg : Index) (f : RmField) (h : f.wellFormed = true) :
    dispLenOf (addressingByte reg f) = dispLength f := by
  cases f <;> simp_all [dispLenOf, addressingByte, dispLength, addressing_fields, RmField.wellFormed]

/-- Instructions are 2 to 6 bytes long. -/
theorem lengthFor_bounds (op m : Byte) : 2 ≤ lengthFor op m ∧ lengthFor op m ≤ 6 := by
  unfold lengthFor dispLenOf
  (repeat' split) <;> omega

end Sys2Proof.Machine
end

