-- ==== Sys2Proof/Laws/Memory.lean ====
section
/-! SUPPORT. The canonical form of memory: every memory operation keeps it, and what a byte reads as after a write. -/

namespace Sys2Proof.Machine

theorem Memory.wf_cons (a : Nat) (b : Byte) (m : Memory) :
    Memory.wf ((a, b) :: m) = true ↔ b ≠ 0 ∧ (∀ c ∈ m, a < c.1) ∧ Memory.wf m = true := by
  simp [Memory.wf, and_assoc]

/-- An offset below every listed one reads as an unlisted offset does. -/
theorem byteAt_of_lt_all {m : Memory} {a : Nat} (h : ∀ c ∈ m, a < c.1) : byteAt m a = 0 := by
  induction m with
  | nil => rfl
  | cons c m ih =>
    obtain ⟨x, b⟩ := c
    have hx : a < x := h (x, b) (by simp)
    simp only [byteAt, Nat.ne_of_lt hx, if_false]
    exact ih fun c hc => h c (by simp [hc])

/-- Every cell of a memory after a write was there before or is the written one. -/
theorem mem_writeByte {m : Memory} {a : Nat} {b : Byte} {c : Host.Cell} (h : c ∈ writeByte m a b) : c ∈ m ∨ c = (a, b) := by
  induction m with
  | nil =>
    simp only [writeByte] at h
    split at h <;> simp_all
  | cons d m ih =>
    obtain ⟨x, v⟩ := d
    simp only [writeByte] at h
    split at h
    · split at h <;> simp at h ⊢ <;> tauto
    · split at h
      · split at h <;> simp at h ⊢ <;> tauto
      · rcases List.mem_cons.mp h with h | h
        · simp [h]
        · rcases ih h with h | h <;> simp [h]

theorem writeByte_wf {m : Memory} (a : Nat) (b : Byte) (h : Memory.wf m = true) : Memory.wf (writeByte m a b) = true := by
  induction m with
  | nil => simp only [writeByte]; split <;> simp_all [Memory.wf]
  | cons d m ih =>
    obtain ⟨x, v⟩ := d
    obtain ⟨hv, hx, hm⟩ := (Memory.wf_cons x v m).mp h
    simp only [writeByte]
    split
    · next hax =>
      split
      · exact h
      · next hb =>
        refine (Memory.wf_cons a b _).mpr ⟨hb, fun c hc => ?_, h⟩
        rcases List.mem_cons.mp hc with rfl | hc
        · exact hax
        · exact Nat.lt_trans hax (hx c hc)
    · split
      · next hax =>
        subst hax
        split
        · exact hm
        · next hb => exact (Memory.wf_cons _ _ _).mpr ⟨hb, hx, hm⟩
      · next h1 h2 =>
        refine (Memory.wf_cons x v _).mpr ⟨hv, fun c hc => ?_, ih hm⟩
        rcases mem_writeByte hc with hc | rfl
        · exact hx c hc
        · show x < a
          omega

theorem writeBytes_wf {m : Memory} (a : Nat) (bytes : List Byte) (h : Memory.wf m = true) :
    Memory.wf (writeBytes m a bytes) = true := by
  induction bytes generalizing m a with
  | nil => exact h
  | cons b bytes ih => exact ih (a + 1) (writeByte_wf a b h)

theorem mem_loadBytes {a : Nat} {bytes : List Byte} {c : Host.Cell} (h : c ∈ loadBytes a bytes) :
    a ≤ c.1 ∧ c.1 < a + bytes.length := by
  induction bytes generalizing a with
  | nil => simp [loadBytes] at h
  | cons b bytes ih =>
    simp only [loadBytes] at h
    split at h
    · have := ih h; simp only [List.length_cons]; omega
    · rcases List.mem_cons.mp h with rfl | h
      · simp
      · have := ih h; simp only [List.length_cons]; omega

theorem loadBytes_wf (a : Nat) (bytes : List Byte) : Memory.wf (loadBytes a bytes) = true := by
  induction bytes generalizing a with
  | nil => rfl
  | cons b bytes ih =>
    simp only [loadBytes]
    split
    · exact ih _
    · next hb => exact (Memory.wf_cons _ _ _).mpr ⟨hb, fun c hc => (mem_loadBytes hc).1, ih _⟩

/-- What a byte reads as after a write: the written byte at its offset, the byte before at any other. -/
theorem byteAt_writeByte {m : Memory} (a : Nat) (b : Byte) (h : Memory.wf m = true) (k : Nat) :
    byteAt (writeByte m a b) k = if k = a then b else byteAt m k := by
  induction m with
  | nil =>
    simp only [writeByte]
    split
    · next hb => subst hb; simp [byteAt]
    · simp [byteAt]
  | cons d m ih =>
    obtain ⟨x, v⟩ := d
    obtain ⟨-, hx, hm⟩ := (Memory.wf_cons x v m).mp h
    simp only [writeByte]
    split
    · next hax =>
      split
      · next hb =>
        subst hb
        split
        · next hk =>
          subst hk
          apply byteAt_of_lt_all
          intro c hc
          rcases List.mem_cons.mp hc with rfl | hc
          · exact hax
          · exact Nat.lt_trans hax (hx c hc)
        · rfl
      · rfl
    · split
      · next hax =>
        subst hax
        split
        · next hb =>
          subst hb
          by_cases hk : k = a
          · subst hk; simp [byteAt_of_lt_all hx]
          · simp [byteAt, hk]
        · simp only [byteAt]
          split <;> rfl
      · next h1 h2 =>
        simp only [byteAt, ih hm]
        by_cases hk : k = x
        · subst hk
          simp [show k ≠ a by omega]
        · simp [hk]

/-- An offset above every listed one reads as an unlisted offset does. -/
theorem byteAt_of_all_lt {m : Memory} {a : Nat} (h : ∀ c ∈ m, c.1 < a) : byteAt m a = 0 := by
  induction m with
  | nil => rfl
  | cons c m ih =>
    obtain ⟨x, b⟩ := c
    have hx : x < a := h (x, b) (by simp)
    simp only [byteAt, show a ≠ x by omega, if_false]
    exact ih fun c hc => h c (by simp [hc])

/-- What a byte reads as after a load: the byte placed there. -/
theorem byteAt_loadBytes (a : Nat) (bytes : List Byte) (k : Nat) (h : k < bytes.length) :
    bytes[k]? = some (byteAt (loadBytes a bytes) (a + k)) := by
  induction bytes generalizing a k with
  | nil => simp at h
  | cons b bytes ih =>
    simp only [loadBytes]
    cases k with
    | zero =>
      split
      · next hb =>
        subst hb
        rw [byteAt_of_lt_all fun c hc => by have := (mem_loadBytes hc).1; omega]
        rfl
      · simp [byteAt]
    | succ k =>
      have := ih (a + 1) k (by simpa using h)
      rw [show a + (k + 1) = a + 1 + k by omega]
      split
      · simpa using this
      · simp only [byteAt, show a + 1 + k ≠ a by omega, if_false]
        simpa using this

theorem reset_memory_wf : Memory.wf State.reset.src = true := rfl

end Sys2Proof.Machine
end

