-- ==== Sys2Proof/Laws/PerInstr.lean ====
section
/-! SUPPORT. Two families of lemmas about instructions as syntax, one lemma per constructor: the length of an encoding is the
table's function of its first two bytes, and an encoding matches its own row of the opcode table. -/

open Sys2Proof Sys2Proof.Machine Sys2Proof.Safety

/-- The bytes of a well-formed instruction are as many as 30_encoding R47 gives for their first two. -/
def Sys2Proof.Laws.EncodeLength.Statement (i : Instr) : Prop :=
  i.wellFormed = true → ∃ op m tail, encode i = op :: m :: tail ∧ (encode i).length = lengthFor op m

/-- The row of the opcode table: the mask and match of the first byte, and of the second (0 and 0 where the row gives none). -/
structure Sys2Proof.Laws.TableRow where
  mask : Byte
  pattern : Byte
  mask2 : Byte
  pattern2 : Byte
  deriving DecidableEq, Repr

/-- The row of an instruction, copied from opcode_table.json. -/
def Sys2Proof.Laws.tableRow (i : Instr) : Sys2Proof.Laws.TableRow :=
  match i with
  | .movRmReg _ _ _ _ => { mask := 0xfc, pattern := 0x88, mask2 := 0x00, pattern2 := 0x00 }
  | .movRmImm _ _ _ _ => { mask := 0xfe, pattern := 0xc6, mask2 := 0x00, pattern2 := 0x00 }
  | .movRegImm _ _ _ => { mask := 0xf0, pattern := 0xb0, mask2 := 0x00, pattern2 := 0x00 }
  | .movAccMem _ _ => { mask := 0xfe, pattern := 0xa0, mask2 := 0x00, pattern2 := 0x00 }
  | .movMemAcc _ _ => { mask := 0xfe, pattern := 0xa2, mask2 := 0x00, pattern2 := 0x00 }
  | .addRmReg _ _ _ _ => { mask := 0xfc, pattern := 0x00, mask2 := 0x00, pattern2 := 0x00 }
  | .subRmReg _ _ _ _ => { mask := 0xfc, pattern := 0x28, mask2 := 0x00, pattern2 := 0x00 }
  | .cmpRmReg _ _ _ _ => { mask := 0xfc, pattern := 0x38, mask2 := 0x00, pattern2 := 0x00 }
  | .addRmImm _ _ _ _ => { mask := 0xfc, pattern := 0x80, mask2 := 0x38, pattern2 := 0x00 }
  | .subRmImm _ _ _ _ => { mask := 0xfc, pattern := 0x80, mask2 := 0x38, pattern2 := 0x28 }
  | .cmpRmImm _ _ _ _ => { mask := 0xfc, pattern := 0x80, mask2 := 0x38, pattern2 := 0x38 }
  | .addAccImm _ _ => { mask := 0xfe, pattern := 0x04, mask2 := 0x00, pattern2 := 0x00 }
  | .subAccImm _ _ => { mask := 0xfe, pattern := 0x2c, mask2 := 0x00, pattern2 := 0x00 }
  | .cmpAccImm _ _ => { mask := 0xfe, pattern := 0x3c, mask2 := 0x00, pattern2 := 0x00 }
  | .je _ => { mask := 0xff, pattern := 0x74, mask2 := 0x00, pattern2 := 0x00 }
  | .jl _ => { mask := 0xff, pattern := 0x7c, mask2 := 0x00, pattern2 := 0x00 }
  | .jle _ => { mask := 0xff, pattern := 0x7e, mask2 := 0x00, pattern2 := 0x00 }
  | .jb _ => { mask := 0xff, pattern := 0x72, mask2 := 0x00, pattern2 := 0x00 }
  | .jbe _ => { mask := 0xff, pattern := 0x76, mask2 := 0x00, pattern2 := 0x00 }
  | .jp _ => { mask := 0xff, pattern := 0x7a, mask2 := 0x00, pattern2 := 0x00 }
  | .jo _ => { mask := 0xff, pattern := 0x70, mask2 := 0x00, pattern2 := 0x00 }
  | .js _ => { mask := 0xff, pattern := 0x78, mask2 := 0x00, pattern2 := 0x00 }
  | .jne _ => { mask := 0xff, pattern := 0x75, mask2 := 0x00, pattern2 := 0x00 }
  | .jnl _ => { mask := 0xff, pattern := 0x7d, mask2 := 0x00, pattern2 := 0x00 }
  | .jnle _ => { mask := 0xff, pattern := 0x7f, mask2 := 0x00, pattern2 := 0x00 }
  | .jnb _ => { mask := 0xff, pattern := 0x73, mask2 := 0x00, pattern2 := 0x00 }
  | .jnbe _ => { mask := 0xff, pattern := 0x77, mask2 := 0x00, pattern2 := 0x00 }
  | .jnp _ => { mask := 0xff, pattern := 0x7b, mask2 := 0x00, pattern2 := 0x00 }
  | .jno _ => { mask := 0xff, pattern := 0x71, mask2 := 0x00, pattern2 := 0x00 }

/-- The first two bytes of an encoding match the instruction's own row of the opcode table. -/
def Sys2Proof.Laws.OpcodeMatches.Statement (i : Instr) : Prop :=
  ∃ op m tail, encode i = op :: m :: tail ∧ op &&& (Sys2Proof.Laws.tableRow i).mask = (Sys2Proof.Laws.tableRow i).pattern ∧
    m &&& (Sys2Proof.Laws.tableRow i).mask2 = (Sys2Proof.Laws.tableRow i).pattern2

/-- The addressing-byte families: the opcode byte fixes the base length. -/
theorem Sys2Proof.Laws.lengthFor_rmReg {op : Byte} (reg : Index) {rm : RmField} (h : rm.wellFormed = true)
    (hop : rmRegByte op = true) : lengthFor op (addressingByte reg rm) = 2 + dispLength rm := by
  simp [lengthFor, hop, dispLenOf_addressingByte reg rm h]

theorem Sys2Proof.Laws.lengthFor_rmImm {op : Byte} (reg : Index) {rm : RmField} (n : Nat) (h : rm.wellFormed = true)
    (h1 : rmRegByte op = false)
    (h2 : (movRmImmByte op = true ∧ n = if op == 0xc7 then 2 else 1) ∨
      (movRmImmByte op = false ∧ arithRmImmByte op = true ∧ n = if op == 0x81 then 2 else 1)) :
    lengthFor op (addressingByte reg rm) = 2 + dispLength rm + n := by
  rcases h2 with ⟨h2, rfl⟩ | ⟨h2, h3, rfl⟩ <;> simp [lengthFor, *, dispLenOf_addressingByte reg rm h]

/-- The mask of the extension field selects the three bits of `reg`. -/
theorem Sys2Proof.Laws.extension_mask : ∀ (m : BitVec 2) (r i : Index),
    (m ++ r ++ i : BitVec 8) &&& 0x38 = (r.zeroExtend 8 <<< 3) := by decide

theorem Sys2Proof.Laws.addressingByte_and_ext (reg : Index) (rm : RmField) :
    addressingByte reg rm &&& 0x38 = (reg.zeroExtend 8 <<< 3) := by
  cases rm <;> exact Sys2Proof.Laws.extension_mask _ _ _

theorem Sys2Proof.Laws.lengthFor_regImm (w : Width) (reg : Index) (m : Byte) :
    lengthFor (0b1011#4 ++ widthBit w ++ reg : BitVec 8) m = if w = .wide then 3 else 2 := by
  have h : ∀ reg : Index, let op := (0b1011#4 ++ widthBit w ++ reg : BitVec 8)
      rmRegByte op = false ∧ movRmImmByte op = false ∧ arithRmImmByte op = false ∧ 0xb0 ≤ op ∧ op ≤ 0xbf ∧
        (0xb8 ≤ op ↔ w = .wide) := by
    cases w <;> decide
  obtain ⟨h1, h2, h3, h4, h5, h6⟩ := h reg
  simp only [lengthFor, h1, h2, h3, h4, h5, h6]
  simp

theorem Sys2Proof.Laws.encodeImm_cons (imm : ImmField) : ∃ b tail, encodeImm imm = b :: tail := by
  cases imm <;> exact ⟨_, _, rfl⟩

theorem Sys2Proof.Laws.EncodeLength.movRmReg (d : Direction) (w : Width) (reg : Index) (rm : RmField) :
    Sys2Proof.Laws.EncodeLength.Statement (.movRmReg d w reg rm) := by
  intro h
  refine ⟨_, _, _, rfl, ?_⟩
  rw [Sys2Proof.Laws.lengthFor_rmReg reg (rm := rm) h (by cases d <;> cases w <;> decide)]
  simp [encode, encodeDisp_length]
  omega

theorem Sys2Proof.Laws.EncodeLength.movRmImm (w : Width) (unused : Index) (rm : RmField) (imm : ImmField) :
    Sys2Proof.Laws.EncodeLength.Statement (.movRmImm w unused rm imm) := by
  intro h
  simp only [Instr.wellFormed, Bool.and_eq_true] at h
  obtain ⟨h1, h2⟩ := h
  refine ⟨_, _, _, rfl, ?_⟩
  rw [Sys2Proof.Laws.lengthFor_rmImm unused (immLength imm) h1 (by cases w <;> decide)
    (by cases w <;> cases imm <;> first | exact .inl ⟨rfl, rfl⟩ | exact .inr ⟨rfl, rfl, rfl⟩ | cases h2)]
  simp [encode, encodeDisp_length, encodeImm_length]
  omega

theorem Sys2Proof.Laws.EncodeLength.movRegImm (w : Width) (reg : Index) (imm : ImmField) :
    Sys2Proof.Laws.EncodeLength.Statement (.movRegImm w reg imm) := by
  intro h
  cases w <;> cases imm <;> first
    | exact ⟨_, _, _, rfl, by rw [Sys2Proof.Laws.lengthFor_regImm]; rfl⟩
    | cases h

theorem Sys2Proof.Laws.EncodeLength.movAccMem (w : Width) (addr : Word) :
    Sys2Proof.Laws.EncodeLength.Statement (.movAccMem w addr) := by
  intro _
  cases w <;> exact ⟨_, _, _, rfl, rfl⟩

theorem Sys2Proof.Laws.EncodeLength.movMemAcc (w : Width) (addr : Word) :
    Sys2Proof.Laws.EncodeLength.Statement (.movMemAcc w addr) := by
  intro _
  cases w <;> exact ⟨_, _, _, rfl, rfl⟩

theorem Sys2Proof.Laws.EncodeLength.addRmReg (d : Direction) (w : Width) (reg : Index) (rm : RmField) :
    Sys2Proof.Laws.EncodeLength.Statement (.addRmReg d w reg rm) := by
  intro h
  refine ⟨_, _, _, rfl, ?_⟩
  rw [Sys2Proof.Laws.lengthFor_rmReg reg (rm := rm) h (by cases d <;> cases w <;> decide)]
  simp [encode, encodeArithRmReg, encodeDisp_length]
  omega

theorem Sys2Proof.Laws.EncodeLength.subRmReg (d : Direction) (w : Width) (reg : Index) (rm : RmField) :
    Sys2Proof.Laws.EncodeLength.Statement (.subRmReg d w reg rm) := by
  intro h
  refine ⟨_, _, _, rfl, ?_⟩
  rw [Sys2Proof.Laws.lengthFor_rmReg reg (rm := rm) h (by cases d <;> cases w <;> decide)]
  simp [encode, encodeArithRmReg, encodeDisp_length]
  omega

theorem Sys2Proof.Laws.EncodeLength.cmpRmReg (d : Direction) (w : Width) (reg : Index) (rm : RmField) :
    Sys2Proof.Laws.EncodeLength.Statement (.cmpRmReg d w reg rm) := by
  intro h
  refine ⟨_, _, _, rfl, ?_⟩
  rw [Sys2Proof.Laws.lengthFor_rmReg reg (rm := rm) h (by cases d <;> cases w <;> decide)]
  simp [encode, encodeArithRmReg, encodeDisp_length]
  omega

theorem Sys2Proof.Laws.EncodeLength.addRmImm (sgn : Bool) (w : Width) (rm : RmField) (imm : ImmField) :
    Sys2Proof.Laws.EncodeLength.Statement (.addRmImm sgn w rm imm) := by
  intro h
  simp only [Instr.wellFormed, Bool.and_eq_true] at h
  obtain ⟨h1, h2⟩ := h
  refine ⟨_, _, _, rfl, ?_⟩
  rw [Sys2Proof.Laws.lengthFor_rmImm (arithBits .add) (immLength imm) h1 (by cases sgn <;> cases w <;> decide)
    (by cases sgn <;> cases w <;> cases imm <;> first | exact .inl ⟨rfl, rfl⟩ | exact .inr ⟨rfl, rfl, rfl⟩ | cases h2)]
  simp [encode, encodeArithRmImm, encodeDisp_length, encodeImm_length]
  omega

theorem Sys2Proof.Laws.EncodeLength.subRmImm (sgn : Bool) (w : Width) (rm : RmField) (imm : ImmField) :
    Sys2Proof.Laws.EncodeLength.Statement (.subRmImm sgn w rm imm) := by
  intro h
  simp only [Instr.wellFormed, Bool.and_eq_true] at h
  obtain ⟨h1, h2⟩ := h
  refine ⟨_, _, _, rfl, ?_⟩
  rw [Sys2Proof.Laws.lengthFor_rmImm (arithBits .sub) (immLength imm) h1 (by cases sgn <;> cases w <;> decide)
    (by cases sgn <;> cases w <;> cases imm <;> first | exact .inl ⟨rfl, rfl⟩ | exact .inr ⟨rfl, rfl, rfl⟩ | cases h2)]
  simp [encode, encodeArithRmImm, encodeDisp_length, encodeImm_length]
  omega

theorem Sys2Proof.Laws.EncodeLength.cmpRmImm (sgn : Bool) (w : Width) (rm : RmField) (imm : ImmField) :
    Sys2Proof.Laws.EncodeLength.Statement (.cmpRmImm sgn w rm imm) := by
  intro h
  simp only [Instr.wellFormed, Bool.and_eq_true] at h
  obtain ⟨h1, h2⟩ := h
  refine ⟨_, _, _, rfl, ?_⟩
  rw [Sys2Proof.Laws.lengthFor_rmImm (arithBits .cmp) (immLength imm) h1 (by cases sgn <;> cases w <;> decide)
    (by cases sgn <;> cases w <;> cases imm <;> first | exact .inl ⟨rfl, rfl⟩ | exact .inr ⟨rfl, rfl, rfl⟩ | cases h2)]
  simp [encode, encodeArithRmImm, encodeDisp_length, encodeImm_length]
  omega

theorem Sys2Proof.Laws.EncodeLength.addAccImm (w : Width) (imm : ImmField) :
    Sys2Proof.Laws.EncodeLength.Statement (.addAccImm w imm) := by
  intro h
  cases w <;> cases imm <;> first | exact ⟨_, _, _, rfl, rfl⟩ | cases h

theorem Sys2Proof.Laws.EncodeLength.subAccImm (w : Width) (imm : ImmField) :
    Sys2Proof.Laws.EncodeLength.Statement (.subAccImm w imm) := by
  intro h
  cases w <;> cases imm <;> first | exact ⟨_, _, _, rfl, rfl⟩ | cases h

theorem Sys2Proof.Laws.EncodeLength.cmpAccImm (w : Width) (imm : ImmField) :
    Sys2Proof.Laws.EncodeLength.Statement (.cmpAccImm w imm) := by
  intro h
  cases w <;> cases imm <;> first | exact ⟨_, _, _, rfl, rfl⟩ | cases h

theorem Sys2Proof.Laws.EncodeLength.je (rel : Byte) : Sys2Proof.Laws.EncodeLength.Statement (.je rel) := by
  intro _
  exact ⟨_, _, _, rfl, rfl⟩

theorem Sys2Proof.Laws.EncodeLength.jl (rel : Byte) : Sys2Proof.Laws.EncodeLength.Statement (.jl rel) := by
  intro _
  exact ⟨_, _, _, rfl, rfl⟩

theorem Sys2Proof.Laws.EncodeLength.jle (rel : Byte) : Sys2Proof.Laws.EncodeLength.Statement (.jle rel) := by
  intro _
  exact ⟨_, _, _, rfl, rfl⟩

theorem Sys2Proof.Laws.EncodeLength.jb (rel : Byte) : Sys2Proof.Laws.EncodeLength.Statement (.jb rel) := by
  intro _
  exact ⟨_, _, _, rfl, rfl⟩

theorem Sys2Proof.Laws.EncodeLength.jbe (rel : Byte) : Sys2Proof.Laws.EncodeLength.Statement (.jbe rel) := by
  intro _
  exact ⟨_, _, _, rfl, rfl⟩

theorem Sys2Proof.Laws.EncodeLength.jp (rel : Byte) : Sys2Proof.Laws.EncodeLength.Statement (.jp rel) := by
  intro _
  exact ⟨_, _, _, rfl, rfl⟩

theorem Sys2Proof.Laws.EncodeLength.jo (rel : Byte) : Sys2Proof.Laws.EncodeLength.Statement (.jo rel) := by
  intro _
  exact ⟨_, _, _, rfl, rfl⟩

theorem Sys2Proof.Laws.EncodeLength.js (rel : Byte) : Sys2Proof.Laws.EncodeLength.Statement (.js rel) := by
  intro _
  exact ⟨_, _, _, rfl, rfl⟩

theorem Sys2Proof.Laws.EncodeLength.jne (rel : Byte) : Sys2Proof.Laws.EncodeLength.Statement (.jne rel) := by
  intro _
  exact ⟨_, _, _, rfl, rfl⟩

theorem Sys2Proof.Laws.EncodeLength.jnl (rel : Byte) : Sys2Proof.Laws.EncodeLength.Statement (.jnl rel) := by
  intro _
  exact ⟨_, _, _, rfl, rfl⟩

theorem Sys2Proof.Laws.EncodeLength.jnle (rel : Byte) : Sys2Proof.Laws.EncodeLength.Statement (.jnle rel) := by
  intro _
  exact ⟨_, _, _, rfl, rfl⟩

theorem Sys2Proof.Laws.EncodeLength.jnb (rel : Byte) : Sys2Proof.Laws.EncodeLength.Statement (.jnb rel) := by
  intro _
  exact ⟨_, _, _, rfl, rfl⟩

theorem Sys2Proof.Laws.EncodeLength.jnbe (rel : Byte) : Sys2Proof.Laws.EncodeLength.Statement (.jnbe rel) := by
  intro _
  exact ⟨_, _, _, rfl, rfl⟩

theorem Sys2Proof.Laws.EncodeLength.jnp (rel : Byte) : Sys2Proof.Laws.EncodeLength.Statement (.jnp rel) := by
  intro _
  exact ⟨_, _, _, rfl, rfl⟩

theorem Sys2Proof.Laws.EncodeLength.jno (rel : Byte) : Sys2Proof.Laws.EncodeLength.Statement (.jno rel) := by
  intro _
  exact ⟨_, _, _, rfl, rfl⟩

theorem Sys2Proof.Laws.OpcodeMatches.movRmReg (d : Direction) (w : Width) (reg : Index) (rm : RmField) :
    Sys2Proof.Laws.OpcodeMatches.Statement (.movRmReg d w reg rm) := by
  exact ⟨_, _, _, rfl, by simp only [Sys2Proof.Laws.tableRow]; cases d <;> cases w <;> decide, by simp [Sys2Proof.Laws.tableRow]⟩

theorem Sys2Proof.Laws.OpcodeMatches.movRmImm (w : Width) (unused : Index) (rm : RmField) (imm : ImmField) :
    Sys2Proof.Laws.OpcodeMatches.Statement (.movRmImm w unused rm imm) := by
  exact ⟨_, _, _, rfl, by simp only [Sys2Proof.Laws.tableRow]; cases w <;> decide, by simp [Sys2Proof.Laws.tableRow]⟩

theorem Sys2Proof.Laws.OpcodeMatches.movRegImm (w : Width) (reg : Index) (imm : ImmField) :
    Sys2Proof.Laws.OpcodeMatches.Statement (.movRegImm w reg imm) := by
  obtain ⟨b, tail, e⟩ := Sys2Proof.Laws.encodeImm_cons imm
  exact ⟨_, b, tail, congrArg (List.cons _) e, by simp only [Sys2Proof.Laws.tableRow]; cases w <;> (revert reg; decide), by simp [Sys2Proof.Laws.tableRow]⟩

theorem Sys2Proof.Laws.OpcodeMatches.movAccMem (w : Width) (addr : Word) :
    Sys2Proof.Laws.OpcodeMatches.Statement (.movAccMem w addr) := by
  exact ⟨_, _, _, rfl, by simp only [Sys2Proof.Laws.tableRow]; cases w <;> decide, by simp [Sys2Proof.Laws.tableRow]⟩

theorem Sys2Proof.Laws.OpcodeMatches.movMemAcc (w : Width) (addr : Word) :
    Sys2Proof.Laws.OpcodeMatches.Statement (.movMemAcc w addr) := by
  exact ⟨_, _, _, rfl, by simp only [Sys2Proof.Laws.tableRow]; cases w <;> decide, by simp [Sys2Proof.Laws.tableRow]⟩

theorem Sys2Proof.Laws.OpcodeMatches.addRmReg (d : Direction) (w : Width) (reg : Index) (rm : RmField) :
    Sys2Proof.Laws.OpcodeMatches.Statement (.addRmReg d w reg rm) := by
  exact ⟨_, _, _, rfl, by simp only [Sys2Proof.Laws.tableRow]; cases d <;> cases w <;> decide, by simp [Sys2Proof.Laws.tableRow]⟩

theorem Sys2Proof.Laws.OpcodeMatches.subRmReg (d : Direction) (w : Width) (reg : Index) (rm : RmField) :
    Sys2Proof.Laws.OpcodeMatches.Statement (.subRmReg d w reg rm) := by
  exact ⟨_, _, _, rfl, by simp only [Sys2Proof.Laws.tableRow]; cases d <;> cases w <;> decide, by simp [Sys2Proof.Laws.tableRow]⟩

theorem Sys2Proof.Laws.OpcodeMatches.cmpRmReg (d : Direction) (w : Width) (reg : Index) (rm : RmField) :
    Sys2Proof.Laws.OpcodeMatches.Statement (.cmpRmReg d w reg rm) := by
  exact ⟨_, _, _, rfl, by simp only [Sys2Proof.Laws.tableRow]; cases d <;> cases w <;> decide, by simp [Sys2Proof.Laws.tableRow]⟩

theorem Sys2Proof.Laws.OpcodeMatches.addRmImm (sgn : Bool) (w : Width) (rm : RmField) (imm : ImmField) :
    Sys2Proof.Laws.OpcodeMatches.Statement (.addRmImm sgn w rm imm) := by
  exact ⟨_, _, _, rfl, by simp only [Sys2Proof.Laws.tableRow]; cases sgn <;> cases w <;> decide, Sys2Proof.Laws.addressingByte_and_ext _ _⟩

theorem Sys2Proof.Laws.OpcodeMatches.subRmImm (sgn : Bool) (w : Width) (rm : RmField) (imm : ImmField) :
    Sys2Proof.Laws.OpcodeMatches.Statement (.subRmImm sgn w rm imm) := by
  exact ⟨_, _, _, rfl, by simp only [Sys2Proof.Laws.tableRow]; cases sgn <;> cases w <;> decide, Sys2Proof.Laws.addressingByte_and_ext _ _⟩

theorem Sys2Proof.Laws.OpcodeMatches.cmpRmImm (sgn : Bool) (w : Width) (rm : RmField) (imm : ImmField) :
    Sys2Proof.Laws.OpcodeMatches.Statement (.cmpRmImm sgn w rm imm) := by
  exact ⟨_, _, _, rfl, by simp only [Sys2Proof.Laws.tableRow]; cases sgn <;> cases w <;> decide, Sys2Proof.Laws.addressingByte_and_ext _ _⟩

theorem Sys2Proof.Laws.OpcodeMatches.addAccImm (w : Width) (imm : ImmField) :
    Sys2Proof.Laws.OpcodeMatches.Statement (.addAccImm w imm) := by
  obtain ⟨b, tail, e⟩ := Sys2Proof.Laws.encodeImm_cons imm
  exact ⟨_, b, tail, congrArg (List.cons _) e, by simp only [Sys2Proof.Laws.tableRow]; cases w <;> decide, by simp [Sys2Proof.Laws.tableRow]⟩

theorem Sys2Proof.Laws.OpcodeMatches.subAccImm (w : Width) (imm : ImmField) :
    Sys2Proof.Laws.OpcodeMatches.Statement (.subAccImm w imm) := by
  obtain ⟨b, tail, e⟩ := Sys2Proof.Laws.encodeImm_cons imm
  exact ⟨_, b, tail, congrArg (List.cons _) e, by simp only [Sys2Proof.Laws.tableRow]; cases w <;> decide, by simp [Sys2Proof.Laws.tableRow]⟩

theorem Sys2Proof.Laws.OpcodeMatches.cmpAccImm (w : Width) (imm : ImmField) :
    Sys2Proof.Laws.OpcodeMatches.Statement (.cmpAccImm w imm) := by
  obtain ⟨b, tail, e⟩ := Sys2Proof.Laws.encodeImm_cons imm
  exact ⟨_, b, tail, congrArg (List.cons _) e, by simp only [Sys2Proof.Laws.tableRow]; cases w <;> decide, by simp [Sys2Proof.Laws.tableRow]⟩

theorem Sys2Proof.Laws.OpcodeMatches.je (rel : Byte) : Sys2Proof.Laws.OpcodeMatches.Statement (.je rel) := by
  exact ⟨_, _, _, rfl, by simp [Sys2Proof.Laws.tableRow], by simp [Sys2Proof.Laws.tableRow]⟩

theorem Sys2Proof.Laws.OpcodeMatches.jl (rel : Byte) : Sys2Proof.Laws.OpcodeMatches.Statement (.jl rel) := by
  exact ⟨_, _, _, rfl, by simp [Sys2Proof.Laws.tableRow], by simp [Sys2Proof.Laws.tableRow]⟩

theorem Sys2Proof.Laws.OpcodeMatches.jle (rel : Byte) : Sys2Proof.Laws.OpcodeMatches.Statement (.jle rel) := by
  exact ⟨_, _, _, rfl, by simp [Sys2Proof.Laws.tableRow], by simp [Sys2Proof.Laws.tableRow]⟩

theorem Sys2Proof.Laws.OpcodeMatches.jb (rel : Byte) : Sys2Proof.Laws.OpcodeMatches.Statement (.jb rel) := by
  exact ⟨_, _, _, rfl, by simp [Sys2Proof.Laws.tableRow], by simp [Sys2Proof.Laws.tableRow]⟩

theorem Sys2Proof.Laws.OpcodeMatches.jbe (rel : Byte) : Sys2Proof.Laws.OpcodeMatches.Statement (.jbe rel) := by
  exact ⟨_, _, _, rfl, by simp [Sys2Proof.Laws.tableRow], by simp [Sys2Proof.Laws.tableRow]⟩

theorem Sys2Proof.Laws.OpcodeMatches.jp (rel : Byte) : Sys2Proof.Laws.OpcodeMatches.Statement (.jp rel) := by
  exact ⟨_, _, _, rfl, by simp [Sys2Proof.Laws.tableRow], by simp [Sys2Proof.Laws.tableRow]⟩

theorem Sys2Proof.Laws.OpcodeMatches.jo (rel : Byte) : Sys2Proof.Laws.OpcodeMatches.Statement (.jo rel) := by
  exact ⟨_, _, _, rfl, by simp [Sys2Proof.Laws.tableRow], by simp [Sys2Proof.Laws.tableRow]⟩

theorem Sys2Proof.Laws.OpcodeMatches.js (rel : Byte) : Sys2Proof.Laws.OpcodeMatches.Statement (.js rel) := by
  exact ⟨_, _, _, rfl, by simp [Sys2Proof.Laws.tableRow], by simp [Sys2Proof.Laws.tableRow]⟩

theorem Sys2Proof.Laws.OpcodeMatches.jne (rel : Byte) : Sys2Proof.Laws.OpcodeMatches.Statement (.jne rel) := by
  exact ⟨_, _, _, rfl, by simp [Sys2Proof.Laws.tableRow], by simp [Sys2Proof.Laws.tableRow]⟩

theorem Sys2Proof.Laws.OpcodeMatches.jnl (rel : Byte) : Sys2Proof.Laws.OpcodeMatches.Statement (.jnl rel) := by
  exact ⟨_, _, _, rfl, by simp [Sys2Proof.Laws.tableRow], by simp [Sys2Proof.Laws.tableRow]⟩

theorem Sys2Proof.Laws.OpcodeMatches.jnle (rel : Byte) : Sys2Proof.Laws.OpcodeMatches.Statement (.jnle rel) := by
  exact ⟨_, _, _, rfl, by simp [Sys2Proof.Laws.tableRow], by simp [Sys2Proof.Laws.tableRow]⟩

theorem Sys2Proof.Laws.OpcodeMatches.jnb (rel : Byte) : Sys2Proof.Laws.OpcodeMatches.Statement (.jnb rel) := by
  exact ⟨_, _, _, rfl, by simp [Sys2Proof.Laws.tableRow], by simp [Sys2Proof.Laws.tableRow]⟩

theorem Sys2Proof.Laws.OpcodeMatches.jnbe (rel : Byte) : Sys2Proof.Laws.OpcodeMatches.Statement (.jnbe rel) := by
  exact ⟨_, _, _, rfl, by simp [Sys2Proof.Laws.tableRow], by simp [Sys2Proof.Laws.tableRow]⟩

theorem Sys2Proof.Laws.OpcodeMatches.jnp (rel : Byte) : Sys2Proof.Laws.OpcodeMatches.Statement (.jnp rel) := by
  exact ⟨_, _, _, rfl, by simp [Sys2Proof.Laws.tableRow], by simp [Sys2Proof.Laws.tableRow]⟩

theorem Sys2Proof.Laws.OpcodeMatches.jno (rel : Byte) : Sys2Proof.Laws.OpcodeMatches.Statement (.jno rel) := by
  exact ⟨_, _, _, rfl, by simp [Sys2Proof.Laws.tableRow], by simp [Sys2Proof.Laws.tableRow]⟩
end

