-- ==== Sys2Proof/Laws/State.lean ====
section
/-! SUPPORT. One lemma per field per update of the state, each true by rfl. -/

namespace Sys2Proof.Machine

@[simp] theorem emitted_src (r : Record) (s : State) : (emitted r s).src = s.src := rfl
@[simp] theorem emitted_len (r : Record) (s : State) : (emitted r s).len = s.len := rfl
@[simp] theorem emitted_resetHeld (r : Record) (s : State) : (emitted r s).resetHeld = s.resetHeld := rfl
@[simp] theorem emitted_pos (r : Record) (s : State) : (emitted r s).pos = s.pos + r.len := rfl
@[simp] theorem emitted_status (r : Record) (s : State) : (emitted r s).status = s.status := rfl
@[simp] theorem emitted_fault (r : Record) (s : State) : (emitted r s).fault = s.fault := rfl
@[simp] theorem emitted_out (r : Record) (s : State) : (emitted r s).out = s.out ++ [r] := rfl

@[simp] theorem cleanEnd_src (s : State) : (cleanEnd s).src = s.src := rfl
@[simp] theorem cleanEnd_len (s : State) : (cleanEnd s).len = s.len := rfl
@[simp] theorem cleanEnd_resetHeld (s : State) : (cleanEnd s).resetHeld = s.resetHeld := rfl
@[simp] theorem cleanEnd_pos (s : State) : (cleanEnd s).pos = s.pos := rfl
@[simp] theorem cleanEnd_status (s : State) : (cleanEnd s).status = .done := rfl
@[simp] theorem cleanEnd_fault (s : State) : (cleanEnd s).fault = s.fault := rfl
@[simp] theorem cleanEnd_out (s : State) : (cleanEnd s).out = s.out := rfl

@[simp] theorem raiseFault_src (e : DecodeError) (s : State) : (raiseFault e s).src = s.src := rfl
@[simp] theorem raiseFault_len (e : DecodeError) (s : State) : (raiseFault e s).len = s.len := rfl
@[simp] theorem raiseFault_resetHeld (e : DecodeError) (s : State) : (raiseFault e s).resetHeld = s.resetHeld := rfl
@[simp] theorem raiseFault_pos (e : DecodeError) (s : State) : (raiseFault e s).pos = s.pos := rfl
@[simp] theorem raiseFault_status (e : DecodeError) (s : State) : (raiseFault e s).status = .fault := rfl
@[simp] theorem raiseFault_fault (e : DecodeError) (s : State) : (raiseFault e s).fault = faultRecordOf e s := rfl
@[simp] theorem raiseFault_out (e : DecodeError) (s : State) : (raiseFault e s).out = s.out := rfl

@[simp] theorem placeBytes_src (bytes : List Byte) (s : State) : (placeBytes bytes s).src = writeBytes s.src s.pos bytes := rfl
@[simp] theorem placeBytes_len (bytes : List Byte) (s : State) : (placeBytes bytes s).len = max s.len (s.pos + bytes.length) := rfl
@[simp] theorem placeBytes_resetHeld (bytes : List Byte) (s : State) : (placeBytes bytes s).resetHeld = s.resetHeld := rfl
@[simp] theorem placeBytes_pos (bytes : List Byte) (s : State) : (placeBytes bytes s).pos = s.pos := rfl
@[simp] theorem placeBytes_status (bytes : List Byte) (s : State) : (placeBytes bytes s).status = s.status := rfl
@[simp] theorem placeBytes_fault (bytes : List Byte) (s : State) : (placeBytes bytes s).fault = s.fault := rfl
@[simp] theorem placeBytes_out (bytes : List Byte) (s : State) : (placeBytes bytes s).out = s.out := rfl

@[simp] theorem resetKeepingSource_src (s : State) : (resetKeepingSource s).src = s.src := rfl
@[simp] theorem resetKeepingSource_len (s : State) : (resetKeepingSource s).len = s.len := rfl
@[simp] theorem resetKeepingSource_resetHeld (s : State) : (resetKeepingSource s).resetHeld = false := rfl
@[simp] theorem resetKeepingSource_pos (s : State) : (resetKeepingSource s).pos = Config.start := rfl
@[simp] theorem resetKeepingSource_status (s : State) : (resetKeepingSource s).status = .run := rfl
@[simp] theorem resetKeepingSource_fault (s : State) : (resetKeepingSource s).fault = FaultRecord.reset := rfl
@[simp] theorem resetKeepingSource_out (s : State) : (resetKeepingSource s).out = [] := rfl

/-- A read of the end row answers exactly outside RUN. -/
theorem readAtEnd_eq {α : Type} (s : State) (value : α) :
    readAtEnd s value = if s.status = .run then none else some value := by
  unfold readAtEnd
  cases s.status <;> rfl

end Sys2Proof.Machine
end

