-- ==== Sys2Proof/Tests/Slice0.lean ====
section
/-! SUPPORT. Tests on small states. Expected results are the vectors of 95_test_vectors.md, named in each comment; a witness
theorem shows a state and operands that meet the hypotheses of each obligation that has some. -/

open Sys2Proof Sys2Proof.Machine Sys2Proof.Safety

namespace Sys2Proof.Tests

/-- The reset state with a source loaded. -/
def loaded (bytes : List Byte) : State := { State.reset with src := loadBytes 0 bytes, len := bytes.length }

/-- The next state of an outcome. -/
def nextOf (o : Host.Outcome State Fault Refusal) : Option State :=
  match o with
  | .next t => some t
  | .fault _ => none
  | .refused _ => none

/-- The fault of an outcome. -/
def faultOf (o : Host.Outcome State Fault Refusal) : Option Fault :=
  match o with
  | .next _ => none
  | .fault f => some f
  | .refused _ => none

/-- What one step from reset on a loaded source emits, and where it leaves the cursor. -/
def stepped (bytes : List Byte) : Option (List Record × Nat) := (nextOf (step (loaded bytes))).map fun t => (t.out, t.pos)

/-- The line one step from reset on a loaded source adds after the header. -/
def lineOf (bytes : List Byte) : Option String := (nextOf (step (loaded bytes))).bind fun t => (lines t)[1]?

/-- The status and the fault record one step from reset on a loaded source leaves. -/
def faulted (bytes : List Byte) : Option (Status × FaultRecord) := (nextOf (step (loaded bytes))).map fun t => (t.status, t.fault)

/-! Ill-formed terms -/

/-- `mod = 00, rm = 110` is the direct address: no base expression 6 without a displacement (30_encoding R54). -/
theorem test_wf_mem6 : (Instr.movRmReg .toReg .wide 0 (.mem 6)).wellFormed = false ∧
    (Instr.movRmReg .toReg .wide 0 (.memDisp8 6 0)).wellFormed = true := by decide
theorem test_wf_rm_every_form : (Instr.movRmImm .narrow 0 (.mem 6) (.one 0)).wellFormed = false ∧
    (Instr.addRmReg .toReg .wide 0 (.mem 6)).wellFormed = false ∧ (Instr.subRmReg .toRm .wide 0 (.mem 6)).wellFormed = false ∧
    (Instr.cmpRmReg .toRm .wide 0 (.mem 6)).wellFormed = false ∧ (Instr.addRmImm true .wide (.mem 6) (.one 0)).wellFormed = false ∧
    (Instr.subRmImm true .wide (.mem 6) (.one 0)).wellFormed = false ∧ (Instr.cmpRmImm true .wide (.mem 6) (.one 0)).wellFormed = false := by
  decide
/-- Families 2, 3, 7: two immediate bytes iff w = 1 (30_encoding R60). -/
theorem test_wf_immediate_by_w : (Instr.movRmImm .wide 0 (.reg 0) (.one 0)).wellFormed = false ∧
    (Instr.movRmImm .narrow 0 (.reg 0) (.two 0)).wellFormed = false ∧ (Instr.movRegImm .wide 0 (.one 0)).wellFormed = false ∧
    (Instr.movRegImm .narrow 0 (.two 0)).wellFormed = false ∧ (Instr.addAccImm .wide (.one 0)).wellFormed = false ∧
    (Instr.subAccImm .narrow (.two 0)).wellFormed = false ∧ (Instr.cmpAccImm .wide (.one 0)).wellFormed = false := by decide
/-- Family 6: two immediate bytes iff sw = 01 (30_encoding R61). -/
theorem test_wf_immediate_by_sw : (Instr.addRmImm true .wide (.reg 0) (.two 0)).wellFormed = false ∧
    (Instr.subRmImm false .wide (.reg 0) (.one 0)).wellFormed = false ∧ (Instr.cmpRmImm false .narrow (.reg 0) (.two 0)).wellFormed = false ∧
    (Instr.addRmImm true .narrow (.reg 0) (.two 0)).wellFormed = false := by decide

/-! Decoding: words written out from 30_encoding R48 and the vectors -/

/-- V6. -/
theorem test_decode_movRmReg : decode [0b10001001, 0b00001110, 0b00110100, 0b00010010] = .ok (.movRmReg .toRm .wide 1 (.direct 4660)) [] := by decide
/-- V20. -/
theorem test_decode_movRmImm : decode [0b11000110, 0b00111000, 0b00000111] = .ok (.movRmImm .narrow 7 (.mem 0) (.one 7)) [] := by decide
/-- V25. -/
theorem test_decode_movRegImm : decode [0b10110100, 0b10000000] = .ok (.movRegImm .narrow 4 (.one 128)) [] := by decide
/-- V30. -/
theorem test_decode_movAccMem : decode [0b10100000, 0b00010000, 0b00000000] = .ok (.movAccMem .narrow 16) [] := by decide
/-- V33. -/
theorem test_decode_movMemAcc : decode [0b10100011, 0b00001101, 0b10000010] = .ok (.movMemAcc .wide 33293) [] := by decide
/-- V39. -/
theorem test_decode_addRmReg : decode [0b00000000, 0b01111111, 0b00000110] = .ok (.addRmReg .toRm .narrow 7 (.memDisp8 7 6)) [] := by decide
/-- V42. -/
theorem test_decode_subRmReg : decode [0b00101011, 0b01011110, 0b00000000] = .ok (.subRmReg .toReg .wide 3 (.memDisp8 6 0)) [] := by decide
/-- V48. -/
theorem test_decode_cmpRmReg : decode [0b00111010, 0b10000001, 0b00000000, 0b00000001] = .ok (.cmpRmReg .toReg .narrow 0 (.memDisp16 1 256)) [] := by decide
/-- V56. -/
theorem test_decode_addRmImm : decode [0b10000001, 0b00000110, 0b00001010, 0b00000000, 0b00101100, 0b00000001] = .ok (.addRmImm false .wide (.direct 10) (.two 300)) [] := by decide
/-- V60. -/
theorem test_decode_subRmImm : decode [0b10000010, 0b00101110, 0b00110100, 0b00010010, 0b00001001] = .ok (.subRmImm true .narrow (.direct 4660) (.one 9)) [] := by decide
/-- V64. -/
theorem test_decode_cmpRmImm : decode [0b10000011, 0b11111001, 0b00001000] = .ok (.cmpRmImm true .wide (.reg 1) (.one 8)) [] := by decide
/-- V66. -/
theorem test_decode_addAccImm : decode [0b00000100, 0b00001001] = .ok (.addAccImm .narrow (.one 9)) [] := by decide
/-- V69. -/
theorem test_decode_subAccImm : decode [0b00101101, 0b00010000, 0b00100111] = .ok (.subAccImm .wide (.two 10000)) [] := by decide
/-- V71. -/
theorem test_decode_cmpAccImm : decode [0b00111101, 0b11111111, 0b11111111] = .ok (.cmpAccImm .wide (.two 65535)) [] := by decide
/-- V73. -/
theorem test_decode_je : decode [0b01110100, 0b11111011] = .ok (.je 0xfb) [] := by decide
/-- V74. -/
theorem test_decode_jl : decode [0b01111100, 0b00000000] = .ok (.jl 0x00) [] := by decide
/-- V75. -/
theorem test_decode_jle : decode [0b01111110, 0b01111111] = .ok (.jle 0x7f) [] := by decide
/-- V76. -/
theorem test_decode_jb : decode [0b01110010, 0b10000000] = .ok (.jb 0x80) [] := by decide
/-- V77. -/
theorem test_decode_jbe : decode [0b01110110, 0b11111111] = .ok (.jbe 0xff) [] := by decide
/-- V78. -/
theorem test_decode_jp : decode [0b01111010, 0b00000001] = .ok (.jp 0x01) [] := by decide
/-- V79. -/
theorem test_decode_jo : decode [0b01110000, 0b00010000] = .ok (.jo 0x10) [] := by decide
/-- V80. -/
theorem test_decode_js : decode [0b01111000, 0b11110000] = .ok (.js 0xf0) [] := by decide
/-- V81. -/
theorem test_decode_jne : decode [0b01110101, 0b11111110] = .ok (.jne 0xfe) [] := by decide
/-- V82. -/
theorem test_decode_jnl : decode [0b01111101, 0b00101010] = .ok (.jnl 0x2a) [] := by decide
/-- V83. -/
theorem test_decode_jnle : decode [0b01111111, 0b10000001] = .ok (.jnle 0x81) [] := by decide
/-- V84. -/
theorem test_decode_jnb : decode [0b01110011, 0b01100100] = .ok (.jnb 0x64) [] := by decide
/-- V85. -/
theorem test_decode_jnbe : decode [0b01110111, 0b10011100] = .ok (.jnbe 0x9c) [] := by decide
/-- V86. -/
theorem test_decode_jnp : decode [0b01111011, 0b01111110] = .ok (.jnp 0x7e) [] := by decide
/-- V87. -/
theorem test_decode_jno : decode [0b01110001, 0b00000011] = .ok (.jno 0x03) [] := by decide
/-- S1, S2, S3, S4: the examples of the source. -/
theorem test_decode_source_examples : decode [0b10001001, 0b11011001] = .ok (.movRmReg .toRm .wide 3 (.reg 1)) [] ∧
    decode [0b10110001, 0b00000101] = .ok (.movRegImm .narrow 1 (.one 5)) [] ∧
    decode [0b00000000, 0b11000001] = .ok (.addRmReg .toRm .narrow 0 (.reg 1)) [] ∧
    decode [0b01110100, 0b00000101] = .ok (.je 5) [] := by decide
/-- Encoding the same instructions gives the vectors' bytes. -/
theorem test_encode_vectors : encode (.movRmReg .toRm .wide 1 (.direct 4660)) = [0x89, 0x0e, 0x34, 0x12] ∧
    encode (.movRmImm .narrow 7 (.mem 0) (.one 7)) = [0xc6, 0x38, 0x07] ∧
    encode (.movRegImm .narrow 4 (.one 128)) = [0xb4, 0x80] ∧
    encode (.movAccMem .narrow 16) = [0xa0, 0x10, 0x00] ∧
    encode (.movMemAcc .wide 33293) = [0xa3, 0x0d, 0x82] ∧
    encode (.addRmReg .toRm .narrow 7 (.memDisp8 7 6)) = [0x00, 0x7f, 0x06] ∧
    encode (.subRmReg .toReg .wide 3 (.memDisp8 6 0)) = [0x2b, 0x5e, 0x00] ∧
    encode (.cmpRmReg .toReg .narrow 0 (.memDisp16 1 256)) = [0x3a, 0x81, 0x00, 0x01] ∧
    encode (.addRmImm false .wide (.direct 10) (.two 300)) = [0x81, 0x06, 0x0a, 0x00, 0x2c, 0x01] ∧
    encode (.subRmImm true .narrow (.direct 4660) (.one 9)) = [0x82, 0x2e, 0x34, 0x12, 0x09] ∧
    encode (.cmpRmImm true .wide (.reg 1) (.one 8)) = [0x83, 0xf9, 0x08] ∧
    encode (.addAccImm .narrow (.one 9)) = [0x04, 0x09] ∧
    encode (.subAccImm .wide (.two 10000)) = [0x2d, 0x10, 0x27] ∧
    encode (.cmpAccImm .wide (.two 65535)) = [0x3d, 0xff, 0xff] := by decide
/-- The table word of V1, byte 0 in bits 7 to 0; above nbits all bits are 0. -/
theorem test_decodeTableWord : decodeTableWord 16 0xcb8b = some (.movRmReg .toReg .wide 1 (.reg 3)) ∧
    decodeTableWord 16 0x06c7 = some (.movRmImm .wide 0 (.direct 0) (.two 0)) ∧ decodeTableWord 8 0xff74 = some (.je 0) ∧
    decodeTableWord 16 0x0579 = none := by decide
theorem test_withFetchWord : stepped [] = some ([], 0) ∧
    (nextOf (step (State.reset.withFetchWord 16 0x06c7))).map (fun t => (t.out, t.pos)) =
      some ([{ mn := .mov, ops := [.direct 0, .imm 0 .two true false], fam := .fam2, len := 6 }], 6) := by decide

/-! One step per instruction -/

/-- V9. -/
theorem test_step_movRmReg : stepped [0x89, 0x87, 0x10, 0x27] =
    some ([{ mn := .mov, ops := [.mem 7 (.disp16 10000), .reg 0 .wide], fam := .fam1, len := 4 }], 4) := by decide
/-- V16. -/
theorem test_step_movRmImm : stepped [0xc7, 0x85, 0x85, 0x03, 0x5b, 0x01] =
    some ([{ mn := .mov, ops := [.mem 5 (.disp16 901), .imm 347 .two true false], fam := .fam2, len := 6 }], 6) := by decide
/-- V27. -/
theorem test_step_movRegImm : stepped [0xb9, 0xf4, 0xff] =
    some ([{ mn := .mov, ops := [.reg 1 .wide, .imm 65524 .two false false], fam := .fam3, len := 3 }], 3) := by decide
/-- V31. -/
theorem test_step_movAccMem : stepped [0xa1, 0xfb, 0x09] =
    some ([{ mn := .mov, ops := [.reg 0 .wide, .direct 2555], fam := .fam4, len := 3 }], 3) := by decide
/-- V32. -/
theorem test_step_movMemAcc : stepped [0xa2, 0x0f, 0x00] =
    some ([{ mn := .mov, ops := [.direct 15, .reg 0 .narrow], fam := .fam4, len := 3 }], 3) := by decide
/-- V35. -/
theorem test_step_addRmReg : stepped [0x01, 0xd8] =
    some ([{ mn := .add, ops := [.reg 0 .wide, .reg 3 .wide], fam := .fam5, len := 2 }], 2) := by decide
/-- V44. -/
theorem test_step_subRmReg : stepped [0x28, 0xc8] =
    some ([{ mn := .sub, ops := [.reg 0 .narrow, .reg 1 .narrow], fam := .fam5, len := 2 }], 2) := by decide
/-- V46. -/
theorem test_step_cmpRmReg : stepped [0x3b, 0x3e, 0x02, 0x00] =
    some ([{ mn := .cmp, ops := [.reg 7 .wide, .direct 2], fam := .fam5, len := 4 }], 4) := by decide
/-- V53. -/
theorem test_step_addRmImm : stepped [0x83, 0xc6, 0xfb] =
    some ([{ mn := .add, ops := [.reg 6 .wide, .imm 251 .one false true], fam := .fam6, len := 3 }], 3) := by decide
/-- V57. -/
theorem test_step_subRmImm : stepped [0x83, 0x2f, 0x22] =
    some ([{ mn := .sub, ops := [.mem 7 .noDisp, .imm 34 .one true true], fam := .fam6, len := 3 }], 3) := by decide
/-- V65. -/
theorem test_step_cmpRmImm : stepped [0x81, 0x7e, 0x02, 0xff, 0xff] =
    some ([{ mn := .cmp, ops := [.mem 6 (.disp8 2), .imm 65535 .two true false], fam := .fam6, len := 5 }], 5) := by decide
/-- V67. -/
theorem test_step_addAccImm : stepped [0x05, 0xe8, 0x03] =
    some ([{ mn := .add, ops := [.reg 0 .wide, .imm 1000 .two false false], fam := .fam7, len := 3 }], 3) := by decide
/-- V68. -/
theorem test_step_subAccImm : stepped [0x2c, 0xe2] =
    some ([{ mn := .sub, ops := [.reg 0 .narrow, .imm 226 .one false false], fam := .fam7, len := 2 }], 2) := by decide
/-- V70. -/
theorem test_step_cmpAccImm : stepped [0x3c, 0x80] =
    some ([{ mn := .cmp, ops := [.reg 0 .narrow, .imm 128 .one false false], fam := .fam7, len := 2 }], 2) := by decide
/-- V73. -/
theorem test_step_je : stepped [0x74, 0xfb] =
    some ([{ mn := .je, ops := [.rel (-5)], fam := .fam8, len := 2 }], 2) := by decide
/-- V74. -/
theorem test_step_jl : stepped [0x7c, 0x00] =
    some ([{ mn := .jl, ops := [.rel 0], fam := .fam8, len := 2 }], 2) := by decide
/-- V75. -/
theorem test_step_jle : stepped [0x7e, 0x7f] =
    some ([{ mn := .jle, ops := [.rel 127], fam := .fam8, len := 2 }], 2) := by decide
/-- V76. -/
theorem test_step_jb : stepped [0x72, 0x80] =
    some ([{ mn := .jb, ops := [.rel (-128)], fam := .fam8, len := 2 }], 2) := by decide
/-- V77. -/
theorem test_step_jbe : stepped [0x76, 0xff] =
    some ([{ mn := .jbe, ops := [.rel (-1)], fam := .fam8, len := 2 }], 2) := by decide
/-- V78. -/
theorem test_step_jp : stepped [0x7a, 0x01] =
    some ([{ mn := .jp, ops := [.rel 1], fam := .fam8, len := 2 }], 2) := by decide
/-- V79. -/
theorem test_step_jo : stepped [0x70, 0x10] =
    some ([{ mn := .jo, ops := [.rel 16], fam := .fam8, len := 2 }], 2) := by decide
/-- V80. -/
theorem test_step_js : stepped [0x78, 0xf0] =
    some ([{ mn := .js, ops := [.rel (-16)], fam := .fam8, len := 2 }], 2) := by decide
/-- V81. -/
theorem test_step_jne : stepped [0x75, 0xfe] =
    some ([{ mn := .jne, ops := [.rel (-2)], fam := .fam8, len := 2 }], 2) := by decide
/-- V82. -/
theorem test_step_jnl : stepped [0x7d, 0x2a] =
    some ([{ mn := .jnl, ops := [.rel 42], fam := .fam8, len := 2 }], 2) := by decide
/-- V83. -/
theorem test_step_jnle : stepped [0x7f, 0x81] =
    some ([{ mn := .jnle, ops := [.rel (-127)], fam := .fam8, len := 2 }], 2) := by decide
/-- V84. -/
theorem test_step_jnb : stepped [0x73, 0x64] =
    some ([{ mn := .jnb, ops := [.rel 100], fam := .fam8, len := 2 }], 2) := by decide
/-- V85. -/
theorem test_step_jnbe : stepped [0x77, 0x9c] =
    some ([{ mn := .jnbe, ops := [.rel (-100)], fam := .fam8, len := 2 }], 2) := by decide
/-- V86. -/
theorem test_step_jnp : stepped [0x7b, 0x7e] =
    some ([{ mn := .jnp, ops := [.rel 126], fam := .fam8, len := 2 }], 2) := by decide
/-- V87. -/
theorem test_step_jno : stepped [0x71, 0x03] =
    some ([{ mn := .jno, ops := [.rel 3], fam := .fam8, len := 2 }], 2) := by decide

/-! The text of a line -/

/-- V1, V2, V13. -/
theorem test_line_register : lineOf [0x8b, 0xcb] = some "mov cx, bx" ∧
    lineOf [0x88, 0xc0] = some "mov al, al" ∧
    lineOf [0x8a, 0x60, 0x00] = some "mov ah, [bx+si+0]" := by decide
/-- V4, V9. -/
theorem test_line_quirk : lineOf [0x88, 0x07] = some "mov [bx+si], al" ∧
    lineOf [0x89, 0x87, 0x10, 0x27] = some "mov [bx+si+10000], ax" := by decide
/-- V7, V8, V12, V14. -/
theorem test_line_displacement : lineOf [0x8b, 0x56, 0x00] = some "mov dx, [bp+0]" ∧
    lineOf [0x8b, 0x46, 0xff] = some "mov ax, [bp+255]" ∧
    lineOf [0x8b, 0x9c, 0x00, 0x80] = some "mov bx, [si+32768]" ∧
    lineOf [0x8b, 0x80, 0x00, 0x00] = some "mov ax, [bx+si+0]" := by decide
/-- V15, V16, V18, V55. -/
theorem test_line_tags : lineOf [0xc6, 0x03, 0x07] = some "mov [bp+di], byte 7" ∧
    lineOf [0xc7, 0x85, 0x85, 0x03, 0x5b, 0x01] = some "mov [di+901], word 347" ∧
    lineOf [0xc6, 0xc1, 0x0c] = some "mov cl, 12" ∧
    lineOf [0x83, 0x82, 0xe8, 0x03, 0x1d] = some "add [bp+si+1000], byte 29" := by decide
/-- V30, V34. -/
theorem test_line_direct : lineOf [0xa0, 0x10, 0x00] = some "mov al, [16]" ∧
    lineOf [0xa1, 0xff, 0xff] = some "mov ax, [65535]" := by decide
/-- V53, V68. -/
theorem test_line_unsigned_immediate : lineOf [0x83, 0xc6, 0xfb] = some "add si, 251" ∧
    lineOf [0x2c, 0xe2] = some "sub al, 226" := by decide
/-- V73, V74, V75, V76. -/
theorem test_line_jump : lineOf [0x74, 0xfb] = some "je -5" ∧
    lineOf [0x7c, 0x00] = some "jl 0" ∧
    lineOf [0x7e, 0x7f] = some "jle 127" ∧
    lineOf [0x72, 0x80] = some "jb -128" := by decide

/-! Faults -/

/-- F1, F17, F4. -/
theorem test_fault_shortRead_no_addressing_byte : faulted [0x8b] =
      some (.fault, { cause := .shortRead, offset := 0, opcode := 0x8b, extValid := false, ext := 0x00 }) ∧
    faulted [0x80] =
      some (.fault, { cause := .shortRead, offset := 0, opcode := 0x80, extValid := false, ext := 0x00 }) ∧
    faulted [0xb8] =
      some (.fault, { cause := .shortRead, offset := 0, opcode := 0xb8, extValid := false, ext := 0x00 }) := by decide
/-- F2, F6, F7, F8. -/
theorem test_fault_shortRead_after_addressing_byte : faulted [0x8b, 0x86, 0x01] =
      some (.fault, { cause := .shortRead, offset := 0, opcode := 0x8b, extValid := true, ext := 0x86 }) ∧
    faulted [0xc7, 0x46] =
      some (.fault, { cause := .shortRead, offset := 0, opcode := 0xc7, extValid := true, ext := 0x46 }) ∧
    faulted [0xc7, 0x46, 0x02, 0x01] =
      some (.fault, { cause := .shortRead, offset := 0, opcode := 0xc7, extValid := true, ext := 0x46 }) ∧
    faulted [0x81, 0xc1, 0xe8] =
      some (.fault, { cause := .shortRead, offset := 0, opcode := 0x81, extValid := true, ext := 0xc1 }) := by decide
/-- F3, F5. -/
theorem test_fault_shortRead_direct : faulted [0xa1, 0x01] =
      some (.fault, { cause := .shortRead, offset := 0, opcode := 0xa1, extValid := false, ext := 0x00 }) ∧
    faulted [0xb8, 0x01] =
      some (.fault, { cause := .shortRead, offset := 0, opcode := 0xb8, extValid := false, ext := 0x00 }) := by decide
/-- F10, F11, F12. -/
theorem test_fault_unsupported_opcode : faulted [0x0f] =
      some (.fault, { cause := .unsupportedOpcode, offset := 0, opcode := 0x0f, extValid := false, ext := 0x00 }) ∧
    faulted [0x79, 0x05] =
      some (.fault, { cause := .unsupportedOpcode, offset := 0, opcode := 0x79, extValid := false, ext := 0x00 }) ∧
    faulted [0x26, 0x8b, 0x07] =
      some (.fault, { cause := .unsupportedOpcode, offset := 0, opcode := 0x26, extValid := false, ext := 0x00 }) := by decide
/-- F13, F14, F16. -/
theorem test_fault_unsupported_extension : faulted [0x80, 0xc8, 0x01] =
      some (.fault, { cause := .unsupportedOpcode, offset := 0, opcode := 0x80, extValid := true, ext := 0xc8 }) ∧
    faulted [0x80, 0xc8] =
      some (.fault, { cause := .unsupportedOpcode, offset := 0, opcode := 0x80, extValid := true, ext := 0xc8 }) ∧
    faulted [0x83, 0xe0, 0x0f] =
      some (.fault, { cause := .unsupportedOpcode, offset := 0, opcode := 0x83, extValid := true, ext := 0xe0 }) := by decide
/-- F9: the second instruction is cut; the first record stands. -/
theorem test_fault_second :
    let s := { loaded [0x89, 0xd9, 0x74] with pos := 2, out := [{ mn := .mov, ops := [.reg 1 .wide, .reg 3 .wide], fam := .fam1, len := 2 }] }
    (nextOf (step s)).map (fun t => t.fault) =
        some { cause := .shortRead, offset := 2, opcode := 0x74, extValid := false, ext := 0 } ∧
      (nextOf (step s)).map (fun t => (t.status, t.pos, t.out.map render)) = some (.fault, 2, ["mov cx, bx"]) := by decide
/-- P5: the first step on the empty source is a clean end; the lines are the header alone. -/
theorem test_clean_end : (nextOf (step (loaded []))).map (fun t => (t.status, t.out, lines t)) = some (.done, [], ["bits 16"]) := by decide

/-! Witnesses: a state and operands that meet the hypotheses of an obligation -/

/-- A state in FAULT: F10. -/
def failedState : State :=
  { loaded [0x0f] with
    status := .fault
    fault := { cause := .unsupportedOpcode, offset := 0, opcode := 0x0f, extValid := false, ext := 0 } }

/-- A state held in reset. -/
def heldState : State := { loaded [0x0f] with resetHeld := true }

theorem test_hyp_MovRmRegEmits : Running State.reset ∧ (nextOf (exec (.movRmReg .toRm .narrow 7 (.direct 65535)) State.reset)).isSome = true := by decide
theorem test_hyp_MovRmImmEmits : Running State.reset ∧ (nextOf (exec (.movRmImm .wide 7 (.reg 7) (.two 65535)) State.reset)).isSome = true := by decide
theorem test_hyp_MovRegImmEmits : Running State.reset ∧ (nextOf (exec (.movRegImm .narrow 7 (.one 255)) State.reset)).isSome = true := by decide
theorem test_hyp_MovAccumulatorEmits : Running State.reset ∧ (nextOf (exec (.movMemAcc .wide 65535) State.reset)).isSome = true ∧
    (nextOf (exec (.movAccMem .narrow 0) State.reset)).isSome = true := by decide
theorem test_hyp_ArithRmRegEmits : Running State.reset ∧ (nextOf (exec (.cmpRmReg .toReg .wide 0 (.memDisp16 7 0)) State.reset)).isSome = true := by decide
theorem test_hyp_ArithRmImmEmits : Running State.reset ∧ (nextOf (exec (.subRmImm true .wide (.mem 0) (.one 128)) State.reset)).isSome = true := by decide
theorem test_hyp_ArithAccImmEmits : Running State.reset ∧ (nextOf (exec (.addAccImm .wide (.two 0)) State.reset)).isSome = true := by decide
theorem test_hyp_JumpsEmit : Running State.reset ∧ (nextOf (exec (.jno 0x80) State.reset)).isSome = true := by decide
theorem test_hyp_ExecFrame : ∃ t, exec (.movMemAcc .wide 0) (loaded [0xa3, 0, 0]) = .next t := ⟨_, rfl⟩
theorem test_hyp_DecodeOfEncode : (Instr.movRmImm .wide 7 (.memDisp16 6 65535) (.two 65535)).wellFormed = true ∧
    (Instr.cmpRmImm true .wide (.direct 0) (.one 255)).wellFormed = true ∧ (Instr.jno 0xff).wellFormed = true := by decide
theorem test_hyp_EncodeOfDecode : decode [0xc6, 0x38, 0x07, 0x99] = .ok (.movRmImm .narrow 7 (.mem 0) (.one 7)) [0x99] := by decide
/-- Both ends of the cut: nothing after the opcode byte, and all but the last byte. -/
theorem test_hyp_TruncatedIsShortRead :
    let i := Instr.addRmImm false .wide (.direct 10) (.two 300)
    i.wellFormed = true ∧ encode i = 0x81 :: [0x06, 0x0a, 0x00, 0x2c, 0x01] ∧ 0 < 5 ∧ 4 < 5 ∧
      decode [0x81] = .error { fault := .shortRead, ext := none } ∧
      decode [0x81, 0x06, 0x0a, 0x00, 0x2c] = .error { fault := .shortRead, ext := some 0x06 } := by decide
/-- One addressing byte for each clause; 0x06 and 0x07 stand on the two sides of rm = 110. -/
theorem test_hyp_AddressingModes : modOf 0xff = 0b11 ∧ (modOf 0x07 = 0b00 ∧ rmOf 0x07 ≠ 0b110) ∧ (modOf 0x05 = 0b00 ∧ rmOf 0x05 ≠ 0b110) ∧
    (modOf 0x06 = 0b00 ∧ rmOf 0x06 = 0b110) ∧ modOf 0x46 = 0b01 ∧ modOf 0x86 = 0b10 ∧
    ([0x34] : List Byte).length < dispLenOf 0x06 ∧ ([0x34] : List Byte).length < dispLenOf 0x86 ∧ ([] : List Byte).length < dispLenOf 0x46 := by
  decide
theorem test_hyp_ImmediateDecoder : ([0x05] : List Byte).length < (if true then 2 else 1) ∧ ([] : List Byte).length < (if false then 2 else 1) := by
  decide
theorem test_hyp_SwSelectsImmediateBytes : unsupportedExt 0x2e = false ∧
    decodeRm 0x2e [0x34, 0x12, 0x09, 0x00] = .ok (.direct 4660) (0x09 :: 0x00 :: []) := by decide
theorem test_hyp_WidthSelectsImmediateBytes : decodeRm 0x06 [0xe8, 0x03, 0x01, 0x00] = .ok (.direct 1000) (0x01 :: 0x00 :: []) := by decide
/-- One instruction for each of the two places a 16-bit quantity stands in: V56 has both, V33 the second. -/
theorem test_hyp_LittleEndian :
    decode [0x81, 0x06, 0x0a, 0x00, 0x2c, 0x01] = .ok (.addRmImm false .wide (.direct 10) (.two 300)) [] ∧
    wordAfterAddressing (.addRmImm false .wide (.direct 10) (.two 300)) = some 10 ∧
    wordAtEnd (.addRmImm false .wide (.direct 10) (.two 300)) = some 300 ∧
    decode [0xa3, 0x0d, 0x82] = .ok (.movMemAcc .wide 33293) [] ∧ wordAtEnd (.movMemAcc .wide 33293) = some 33293 := by decide
/-- The first and the last byte of each run of 30_encoding R66, and their supported neighbours. -/
theorem test_hyp_UnsupportedOpcodeBytes :
    ([0x06, 0x27, 0x2e, 0x37, 0x3e, 0x6f, 0x79, 0x84, 0x87, 0x8c, 0x9f, 0xa4, 0xaf, 0xc0, 0xc5, 0xc8, 0xff] : List Byte).all
      (fun op => unsupportedByte op && decide (decode [op, 0, 0, 0, 0, 0] = .error { fault := .unsupportedOpcode, ext := none })) = true ∧
    ([0x05, 0x28, 0x2d, 0x38, 0x3d, 0x70, 0x78, 0x7a, 0x83, 0x88, 0x8b, 0xa0, 0xa3, 0xb0, 0xbf, 0xc6, 0xc7] : List Byte).all
      (fun op => !unsupportedByte op && decide (decode [op, 0, 0, 0, 0, 0] ≠ .error { fault := .unsupportedOpcode, ext := none })) = true := by
  decide
theorem test_hyp_UnsupportedExtensions : arithRmImmByte 0x80 = true ∧ arithRmImmByte 0x83 = true ∧ unsupportedExt 0xc8 = true ∧
    unsupportedExt 0xf7 = true ∧ unsupportedExt 0xc0 = false ∧ unsupportedExt 0xef = false ∧ unsupportedExt 0xff = false := by decide
theorem test_hyp_LengthByFirstTwoBytes : decode [0x81, 0x06, 0x0a, 0x00, 0x2c, 0x01, 0x90] = .ok (.addRmImm false .wide (.direct 10) (.two 300)) [0x90] ∧
    lengthFor 0x81 0x06 = 6 ∧ decode [0x74, 0x05] = .ok (.je 5) [] ∧ lengthFor 0x74 0x05 = 2 := by decide
theorem test_hyp_StepRunsDecoded : Running (loaded [0x74, 0x05]) ∧ (loaded [0x74, 0x05]).pos < (loaded [0x74, 0x05]).len ∧
    decode (window (loaded [0x74, 0x05]) 0) = .ok (.je 5) [] := by decide
/-- Each branch: the end of the source, a record, a fault. -/
theorem test_hyp_StepRefinesPseudocode : (Running (loaded []) ∧ (loaded []).pos = (loaded []).len) ∧
    (Running (loaded [0x81, 0xc1, 0xe8, 0x03]) ∧ (loaded [0x81, 0xc1, 0xe8, 0x03]).pos ≤ (loaded [0x81, 0xc1, 0xe8, 0x03]).len ∧
      (refDecode (loaded [0x81, 0xc1, 0xe8, 0x03]) 0).toOption.isSome = true) ∧
    (Running (loaded [0x81, 0xc1, 0xe8]) ∧ (refDecode (loaded [0x81, 0xc1, 0xe8]) 0).toOption.isSome = false) := by decide
theorem test_hyp_CleanEndStep : (let s := (loaded [0x74, 0x05]); Running { s with pos := 2 } ∧ 2 = s.len) ∧
    Running (loaded []) ∧ (loaded []).len = 0 ∧ (loaded []).pos = 0 ∧ (loaded []).out = [] ∧ (nextOf (step (loaded []))).isSome = true := by decide
/-- Each cause of the table: an unsupported opcode byte, a missing addressing byte, an unsupported extension at the last byte, a missing
last byte; and one byte more, which is no fault. -/
theorem test_hyp_FaultStep : Running (loaded [0x0f]) ∧ verdict 0x0f 0 1 = some .unsupportedOpcode ∧ verdict 0x80 0 1 = some .shortRead ∧
    verdict 0x80 0xc8 2 = some .unsupportedOpcode ∧ verdict 0x81 0xc1 3 = some .shortRead ∧ verdict 0x81 0xc1 4 = none ∧
    verdict (byteAt (loaded [0x0f]).src 0) (byteAt (loaded [0x0f]).src 1) (1 - 0) = some .unsupportedOpcode := by decide
theorem test_hyp_NoFaultStep : Running (loaded [0x81, 0xc1, 0xe8, 0x03]) ∧ (loaded [0x81, 0xc1, 0xe8, 0x03]).pos < 4 ∧
    verdict (byteAt (loaded [0x81, 0xc1, 0xe8, 0x03]).src 0) (byteAt (loaded [0x81, 0xc1, 0xe8, 0x03]).src 1) (4 - 0) = none := by decide
theorem test_hyp_FaultIsTerminal : (failedState.resetHeld = false ∧ failedState.status = .fault) ∧
    (HostAction.assertReset ≠ .releaseReset ∧ (nextOf (hostAct .assertReset failedState)).isSome = true) ∧
    (let s := { failedState with resetHeld := true }; s.status = .fault ∧ (nextOf (hostAct (.load []) s)).isSome = true) := by decide
theorem test_hyp_NoStepWhenDoneOrHeld : (let s := { State.reset with status := .done }; s.resetHeld = false ∧ s.status = .done ∧ faultOf (step s) = some .ended) ∧
    heldState.resetHeld = true ∧ faultOf (step heldState) = some .heldInReset := by decide
/-- The three outcomes of a step. -/
theorem test_hyp_StepFrame : (nextOf (step (loaded []))).isSome = true ∧ (nextOf (step (loaded [0x0f]))).isSome = true ∧
    (nextOf (step (loaded [0x74, 0x05]))).isSome = true := by decide
/-- The same bytes at offset 0 and at offset 2 of another source, with other records. -/
theorem test_hyp_NoHiddenState :
    let s1 := loaded [0x74, 0x05]
    let s2 := { loaded [0x70, 0x00, 0x74, 0x05] with pos := 2, out := [{ mn := .jo, ops := [.rel 0], fam := .fam8, len := 2 }] }
    Running s1 ∧ Running s2 ∧ s1.pos < s1.len ∧ s2.pos < s2.len ∧ (∀ k, k < 6 → (s1.pos + k < s1.len ↔ s2.pos + k < s2.len)) ∧
      ∀ k, k < 6 → s1.pos + k < s1.len → byteAt s1.src (s1.pos + k) = byteAt s2.src (s2.pos + k) := by decide
theorem test_hyp_SourceUnavailableNeverRaised : (nextOf (step (loaded [0x0f]))).isSome = true ∧ (nextOf (exec (.je 5) State.reset)).isSome = true ∧
    State.reset.fault.cause ≠ .sourceUnavailable := by decide

theorem test_inv_loaded : Inv (loaded [0x74, 0x05]) :=
  ⟨by decide, by decide, by decide, by decide, fun _ => rfl, by simp [loaded, State.reset], by simp [loaded, State.reset]⟩
theorem test_inv_empty : Inv (loaded []) :=
  ⟨by decide, by decide, by decide, by decide, fun _ => rfl, by simp [loaded, State.reset], by simp [loaded, State.reset]⟩
/-- The invariant is met in FAULT too. -/
theorem test_inv_failed : Inv failedState :=
  ⟨by decide, by decide, by decide, by decide, by simp [failedState], by simp [failedState],
    fun _ => ⟨by decide, by decide, by decide, by decide, by simp [failedState], by simp [failedState]⟩⟩
theorem test_hyp_InvKept : Inv (loaded [0x74, 0x05]) ∧ (nextOf (step (loaded [0x74, 0x05]))).isSome = true := ⟨test_inv_loaded, by decide⟩
theorem test_hyp_ListingKept : Faithful (loaded [0x74, 0x05]) ∧ (nextOf (step (loaded [0x74, 0x05]))).isSome = true := ⟨rfl, by decide⟩
/-- A state in the middle of its source, one record emitted. -/
theorem test_hyp_ListingKept_middle :
    Faithful { loaded [0x74, 0x05, 0x0f] with pos := 2, out := [{ mn := .je, ops := [.rel 5], fam := .fam8, len := 2 }] } :=
  ⟨by decide, rfl⟩
theorem test_hyp_RunEnds : Running (loaded [0x74, 0x05]) ∧ Inv (loaded [0x74, 0x05]) ∧ Faithful (loaded [0x74, 0x05]) :=
  ⟨by decide, test_inv_loaded, rfl⟩
/-- The hypothesis on the open width is met whatever the width is. -/
theorem test_hyp_CursorFitsWidth : Inv (loaded []) ∧ (loaded []).len < 2 ^ Config.posWidth ∧ (nextOf (step (loaded []))).isSome = true :=
  ⟨test_inv_empty, Nat.two_pow_pos _, by decide⟩
/-- Both sides of the end of the source, and an empty read. -/
theorem test_hyp_MemReadDefined : 0 + 2 ≤ (loaded [0x74, 0x05]).len ∧ (loaded [0x74, 0x05]).len < 1 + 2 ∧
    memRead (loaded [0x74, 0x05]) 0 2 = some [0x74, 0x05] ∧ memRead (loaded [0x74, 0x05]) 1 2 = none ∧
    memRead (loaded [0x74, 0x05]) 2 0 = some [] ∧ (nextOf (step (loaded [0x74, 0x05]))).isSome = true := by decide
theorem test_hyp_CanonicalSourcesEqual :
    let s := loaded [0x74, 0x00, 0x05]
    let t := { s with src := writeBytes [] 0 [0x74, 0x00, 0x05] }
    sourceWf s = true ∧ sourceWf t = true ∧ s.len = t.len ∧ ∀ a, a < s.len → byteAt s.src a = byteAt t.src a := by decide
theorem test_hyp_LoadPlacesSource : heldState.resetHeld = true ∧ (loaded []).resetHeld = false ∧
    (nextOf (hostAct (.load [0x00, 0x05]) heldState)).map (fun t => (t.src, t.len)) = some ([(1, 0x05)], 2) := by decide
theorem test_hyp_ResetValues : heldState.resetHeld = true ∧ sourceWf heldState = true := by decide
/-- The reads of R130 in its rows: nothing while reset is held, no fault record in RUN, the fault record at the end of the run. -/
theorem test_hyp_HostPortRules : failedState.resetHeld = false ∧ failedState.status ≠ .run ∧ (loaded []).resetHeld = false ∧
    (loaded []).status = .run ∧ hostView heldState = none ∧
    (hostView (loaded [])).map (fun v => (v.lines, v.out, v.status)) = some (["bits 16"], [], 0b00) ∧
    (hostView (loaded [])).map (fun v => (v.fault, v.faultCode)) = some (none, none) ∧
    (hostView failedState).map (fun v => (v.status, v.faultCode)) = some (0b10, some 2) ∧
    (hostView (cleanEnd (loaded []))).map (fun v => (v.status, v.faultCode)) = some (0b01, some 0) := by decide
theorem test_hyp_JumpText : 0 < 128 ∧ renderOperand (.rel (-128)) = "-128" := by decide
theorem test_hyp_LineStream : (nextOf (step (loaded [0x74, 0x05]))).map lines = some ["bits 16", "je 5"] := by decide

end Sys2Proof.Tests
end

section
/-! The state statements (10_state): what a step reads of the source, and the register designators. -/

namespace Sys2Proof.Machine

open Sys2Proof.Safety

/-! What a step reads of the source -/

/-- The step where the window decodes to an instruction: that instruction's meaning. -/
theorem step_of_decode_ok {s : State} {i : Instr} {rest : List Byte} (hr : Running s) (hlt : s.pos < s.len)
    (hd : decode (window s s.pos) = .ok i rest) : step s = exec i s := by
  rw [step_inside hr hlt, hd]

/-- The step where the window decodes to a fault: the raise of that fault. -/
theorem step_of_decode_error {s : State} {e : DecodeError} (hr : Running s) (hlt : s.pos < s.len)
    (hd : decode (window s s.pos) = .error e) : step s = .next (raiseFault e s) := by
  rw [step_inside hr hlt, hd]

/-- Equally many of the six bytes exist from `p` in `s` and from `q` in `t` when the same of the six offsets do: the smaller of
two different counts is an offset that exists on one side only. -/
theorem window_length_eq_of_agree {s t : State} {p q : Nat} (hex : ∀ k, k < 6 → (p + k < s.len ↔ q + k < t.len)) :
    min 6 (s.len - p) = min 6 (t.len - q) := by
  by_contra hne
  have := hex (min (s.len - p) (t.len - q)) (by omega)
  omega

/-- Windows at two offsets of two sources are equal when the sources agree on the six bytes from there that exist. -/
theorem window_eq_of_agree {s t : State} {p q : Nat} (hex : ∀ k, k < 6 → (p + k < s.len ↔ q + k < t.len))
    (hbytes : ∀ k, k < 6 → p + k < s.len → byteAt s.src (p + k) = byteAt t.src (q + k)) : window s p = window t q := by
  rw [window_eq, window_eq, Config.maxLength, ← window_length_eq_of_agree hex]
  refine List.map_congr_left fun k hk => ?_
  have hlt : k < min 6 (s.len - p) := List.mem_range.mp hk
  exact hbytes k (by omega) (by omega)

/-- Beside the decode's fault, a fault record depends on the state by the opcode byte and the cursor only. -/
theorem faultRecordOf_eq_of_opcode {s t : State} (e : DecodeError) (hop : byteAt s.src s.pos = byteAt t.src t.pos) :
    faultRecordOf e t = { faultRecordOf e s with offset := t.pos } := by
  simp [faultRecordOf, hop]

/-- Settles O30: the two windows are equal, so one decode serves both steps; an instruction emits the same record in every state,
and a fault record takes only the opcode byte and the cursor from the state (10_state R20). -/
theorem noHiddenState : Obligations.NoHiddenState := by
  intro s1 s2 hr1 hr2 hlt1 hlt2 hex hbytes
  have hwindow : window s1 s1.pos = window s2 s2.pos := window_eq_of_agree hex hbytes
  cases hd : decode (window s1 s1.pos) with
  | ok i rest =>
    obtain ⟨r, hemit⟩ := exec_emit i
    refine .inl ⟨r, ?_, ?_⟩
    · rw [step_of_decode_ok hr1 hlt1 hd, hemit, emit_of_running hr1, emitted]
    · rw [step_of_decode_ok hr2 hlt2 (hwindow ▸ hd), hemit, emit_of_running hr2, emitted]
  | error e =>
    have hop : byteAt s1.src s1.pos = byteAt s2.src s2.pos := hbytes 0 (by omega) hlt1
    refine .inr ⟨faultRecordOf e s1, step_of_decode_error hr1 hlt1 hd, ?_⟩
    rw [step_of_decode_error hr2 hlt2 (hwindow ▸ hd), raiseFault, faultRecordOf_eq_of_opcode e hop]

/-! Register designators -/

@[simp] theorem renderOperand_reg (idx : Index) (w : Width) : renderOperand (.reg idx w) = registerName idx w := rfl

/-- The accumulator renders as the designator of index 0 (10_state R24). -/
@[simp] theorem renderOperand_accumulator (w : Width) : renderOperand (accumulator w) = registerName 0 w := rfl

/-- The eight indices in order name the wide table (10_state R23). -/
theorem registerName_wide_range : ((List.range 8).map fun k => registerName (BitVec.ofNat 3 k) .wide) = wideNames := by decide

/-- The eight indices in order name the narrow table (10_state R24). -/
theorem registerName_narrow_range :
    ((List.range 8).map fun k => registerName (BitVec.ofNat 3 k) .narrow) = narrowNames := by decide

/-- Settles O43: the indices in order read off the two tables, and the accumulator is their entry 0 (10_state R23, R24). -/
theorem registerNames : Obligations.RegisterNames := by
  refine ⟨registerName_wide_range, registerName_narrow_range, ?wideAccumulator, ?narrowAccumulator, renderOperand_reg⟩
  case wideAccumulator => rw [renderOperand_accumulator]; decide
  case narrowAccumulator => rw [renderOperand_accumulator]; decide

end Sys2Proof.Machine
end

section
/-! The encoding statements (30_encoding): the addressing modes, the length of an instruction, the text of a displacement. -/

namespace Sys2Proof.Machine

open Sys2Proof.Safety

/-! The addressing-mode decoder, one equation per mode (30_encoding R58) -/

theorem decodeRm_register {m : Byte} (h : modOf m = 0b11) (bytes : List Byte) :
    decodeRm m bytes = .ok (.reg (rmOf m)) bytes := by
  simp [decodeRm, h]

theorem decodeRm_base {m : Byte} (h : modOf m = 0b00) (hrm : rmOf m ≠ 0b110) (bytes : List Byte) :
    decodeRm m bytes = .ok (.mem (rmOf m)) bytes := by
  simp only [decodeRm, h, if_neg hrm]
  rfl

theorem decodeRm_direct {m : Byte} (h : modOf m = 0b00) (hrm : rmOf m = 0b110) (bytes : List Byte) :
    decodeRm m bytes = (take2 (some m) bytes).andThen fun v rest => .ok (.direct v) rest := by
  simp [decodeRm, h, hrm]

theorem decodeRm_disp8 {m : Byte} (h : modOf m = 0b01) (bytes : List Byte) :
    decodeRm m bytes = (take1 (some m) bytes).andThen fun b rest => .ok (.memDisp8 (rmOf m) b) rest := by
  simp [decodeRm, h]

theorem decodeRm_disp16 {m : Byte} (h : modOf m = 0b10) (bytes : List Byte) :
    decodeRm m bytes = (take2 (some m) bytes).andThen fun v rest => .ok (.memDisp16 (rmOf m) v) rest := by
  simp [decodeRm, h]

/-- A read of one byte where none exists (20_memory R31). -/
theorem take1_short (ext : Option Byte) {bytes : List Byte} (h : bytes.length < 1) :
    take1 ext bytes = .error { fault := .shortRead, ext := ext } := by
  match bytes with
  | [] => rfl

/-- A read of two bytes where at most one exists (20_memory R31, R35). -/
theorem take2_short (ext : Option Byte) {bytes : List Byte} (h : bytes.length < 2) :
    take2 ext bytes = .error { fault := .shortRead, ext := ext } := by
  match bytes with
  | [] => rfl
  | [_] => rfl

/-- The addressing-mode decoder with too few bytes: a ShortRead, by the number of bytes each mode reads. -/
theorem decodeRm_short {m : Byte} {bytes : List Byte} (h : bytes.length < dispLenOf m) :
    decodeRm m bytes = .error { fault := .shortRead, ext := some m } := by
  unfold dispLenOf at h
  rcases mod_cases (modOf m) with hmod | hmod | hmod | hmod <;> simp [hmod] at h
  · obtain ⟨hrm, hlen⟩ : rmOf m = 0b110 ∧ bytes.length < 2 := by split at h <;> simp_all
    rw [decodeRm_direct hmod hrm, take2_short _ hlen, Decoded.andThen_error]
  · rw [decodeRm_disp8 hmod, take1_short _ (by simpa using h), Decoded.andThen_error]
  · rw [decodeRm_disp16 hmod, take2_short _ (by omega), Decoded.andThen_error]

/-- Settles O14: the equation of each mode, and `decodeRm_short`; the operands are those of `rmOperand` by definition. -/
theorem addressingModes : Obligations.AddressingModes := by
  intro m bytes
  refine ⟨fun h => decodeRm_register h bytes, fun h hrm => decodeRm_base h hrm bytes, ?direct, ?disp8, ?disp16, decodeRm_short,
    fun _ _ => rfl, fun _ _ => rfl, fun _ _ => rfl, fun _ _ _ => rfl, fun _ _ _ => rfl⟩
  case direct =>
    intro h hrm lo hi
    rw [decodeRm_direct h hrm, take2_cons, Decoded.andThen_ok_eq]
  case disp8 =>
    intro h b
    rw [decodeRm_disp8 h, take1_cons, Decoded.andThen_ok_eq]
  case disp16 =>
    intro h lo hi
    rw [decodeRm_disp16 h, take2_cons, Decoded.andThen_ok_eq]

/-! What decodes is the encoding of the instruction it decodes to (30_encoding R48) -/

/-- The opcode byte put together again from its class and the fields read from it, as the encoder does. -/
def opcodeFromFields (op : Byte) : Byte :=
  match classify op with
  | .fam1 => 0b100010#6 ++ directionBit (directionOf op) ++ widthBit (widthAt op 0)
  | .fam2 => 0b1100011#7 ++ widthBit (widthAt op 0)
  | .fam3 => 0b1011#4 ++ widthBit (widthAt op 3) ++ op.extractLsb' 0 3
  | .fam4 => (if toMemoryOf op then 0b1010001#7 else 0b1010000#7) ++ widthBit (widthAt op 0)
  | .fam5 a => 0b00#2 ++ arithBits a ++ 0b0#1 ++ directionBit (directionOf op) ++ widthBit (widthAt op 0)
  | .fam6 => 0b100000#6 ++ BitVec.ofBool (signOf op) ++ widthBit (widthAt op 0)
  | .fam7 a => 0b00#2 ++ arithBits a ++ 0b10#2 ++ widthBit (widthAt op 0)
  | .fam8 j => (encode (jumpForm j 0)).headD 0
  | .unsupported => op

/-- No bit of an opcode byte is lost by its class and its fields. -/
theorem opcodeFromFields_eq : ∀ op : Byte, opcodeFromFields op = op := by decide

theorem encode_movAccForm (toMemory : Bool) (w : Width) (addr : Word) :
    encode (if toMemory then .movMemAcc w addr else .movAccMem w addr) =
      ((if toMemory then 0b1010001#7 else 0b1010000#7) ++ widthBit w : BitVec 8) :: encodeWord addr := by
  cases toMemory <;> rfl

theorem wellFormed_movAccForm (toMemory : Bool) (w : Width) (addr : Word) :
    (if toMemory then Instr.movMemAcc w addr else .movAccMem w addr).wellFormed = true := by cases toMemory <;> rfl

theorem encode_rmRegForm (a : ArithOp) (d : Direction) (w : Width) (reg : Index) (rm : RmField) :
    encode (rmRegForm a d w reg rm) = encodeArithRmReg a d w reg rm := by cases a <;> rfl

theorem wellFormed_rmRegForm (a : ArithOp) (d : Direction) (w : Width) (reg : Index) (rm : RmField) :
    (rmRegForm a d w reg rm).wellFormed = rm.wellFormed := by cases a <;> rfl

theorem encode_rmImmForm (a : ArithOp) (sgn : Bool) (w : Width) (rm : RmField) (imm : ImmField) :
    encode (rmImmForm a sgn w rm imm) = encodeArithRmImm a sgn w rm imm := by cases a <;> rfl

theorem wellFormed_rmImmForm (a : ArithOp) (sgn : Bool) (w : Width) (rm : RmField) (imm : ImmField) :
    (rmImmForm a sgn w rm imm).wellFormed = (rm.wellFormed && imm.matches (twoBySw sgn w)) := by cases a <;> rfl

theorem encode_accImmForm (a : ArithOp) (w : Width) (imm : ImmField) :
    encode (accImmForm a w imm) = encodeAccImm a w imm := by cases a <;> rfl

theorem wellFormed_accImmForm (a : ArithOp) (w : Width) (imm : ImmField) :
    (accImmForm a w imm).wellFormed = imm.matches (twoByWidth w) := by cases a <;> rfl

theorem encode_jumpForm (j : JumpOp) (rel : Byte) :
    encode (jumpForm j rel) = [(encode (jumpForm j 0)).headD 0, rel] := by cases j <;> rfl

theorem wellFormed_jumpForm (j : JumpOp) (rel : Byte) : (jumpForm j rel).wellFormed = true := by cases j <;> rfl

/-- The extension that selects an operation is the `ooo` of its encoding. -/
theorem arithBits_of_arithOfExt {ext : Index} {a : ArithOp} (h : arithOfExt ext = some a) : arithBits a = ext := by
  unfold arithOfExt at h
  split_ifs at h <;> (cases h; subst ext; rfl)

/-- The body of family 2 answers only the instruction whose encoding follows the opcode byte. -/
theorem decodeMovRmImm_ok {op : Byte} {bytes rest : List Byte} {i : Instr} (h : decodeMovRmImm op bytes = .ok i rest) :
    ∃ unused rm imm, i = .movRmImm (widthAt op 0) unused rm imm ∧ i.wellFormed = true ∧
      bytes = addressingByte unused rm :: (encodeDisp rm ++ (encodeImm imm ++ rest)) := by
  obtain ⟨m, afterM, hm, h⟩ := Decoded.andThen_ok h
  obtain ⟨rm, afterRm, hrm, h⟩ := Decoded.andThen_ok h
  obtain ⟨imm, afterImm, himm, h⟩ := Decoded.andThen_ok h
  cases h
  obtain rfl := take1_ok hm
  obtain ⟨hwf, rfl, hbyte⟩ := decodeRm_ok hrm
  obtain ⟨hmatches, rfl⟩ := decodeImm_ok himm
  exact ⟨regOf m, rm, imm, rfl, by simp [Instr.wellFormed, hwf, hmatches], by rw [hbyte]⟩

/-- The body of family 6 answers only the instruction whose encoding follows the opcode byte. -/
theorem decodeArithRmImm_ok {op : Byte} {bytes rest : List Byte} {i : Instr} (h : decodeArithRmImm op bytes = .ok i rest) :
    ∃ a rm imm, i = rmImmForm a (signOf op) (widthAt op 0) rm imm ∧ i.wellFormed = true ∧
      bytes = addressingByte (arithBits a) rm :: (encodeDisp rm ++ (encodeImm imm ++ rest)) := by
  obtain ⟨m, afterM, hm, h⟩ := Decoded.andThen_ok h
  cases hext : arithOfExt (regOf m) with
  | none => simp [hext] at h
  | some a =>
    simp only [hext] at h
    obtain ⟨rm, afterRm, hrm, h⟩ := Decoded.andThen_ok h
    obtain ⟨imm, afterImm, himm, h⟩ := Decoded.andThen_ok h
    cases h
    obtain rfl := take1_ok hm
    obtain ⟨hwf, rfl, hbyte⟩ := decodeRm_ok hrm
    obtain ⟨hmatches, rfl⟩ := decodeImm_ok himm
    exact ⟨a, rm, imm, rfl, by simp [wellFormed_rmImmForm, hwf, hmatches], by rw [arithBits_of_arithOfExt hext, hbyte]⟩

/-- Whatever decodes is well-formed, and the bytes consumed are its encoding: by family, the opcode byte is the one put together
from its fields, and the body answers only the instruction whose encoding follows. -/
theorem encode_of_decode {bytes rest : List Byte} {i : Instr} (h : decode bytes = .ok i rest) :
    i.wellFormed = true ∧ bytes = encode i ++ rest := by
  cases bytes with
  | nil => cases h
  | cons op bytes =>
    have hop := opcodeFromFields_eq op
    unfold opcodeFromFields at hop
    unfold decode at h
    cases hclass : classify op <;> simp only [hclass] at h hop
    case fam1 =>
      obtain ⟨reg, rm, rfl, hwf, rfl⟩ := decodeRmReg_ok h
      exact ⟨hwf, by simp only [encode, hop, List.cons_append]⟩
    case fam2 =>
      obtain ⟨unused, rm, imm, rfl, hwf, rfl⟩ := decodeMovRmImm_ok h
      exact ⟨hwf, by simp only [encode, hop, List.cons_append, List.append_assoc]⟩
    case fam3 =>
      obtain ⟨imm, afterImm, himm, h⟩ := Decoded.andThen_ok h
      cases h
      obtain ⟨hmatches, rfl⟩ := decodeImm_ok himm
      exact ⟨hmatches, by simp only [encode, hop, List.cons_append]⟩
    case fam4 =>
      obtain ⟨addr, afterAddr, haddr, h⟩ := Decoded.andThen_ok h
      cases h
      obtain ⟨lo, hi, rfl, rfl⟩ := take2_ok haddr
      exact ⟨wellFormed_movAccForm _ _ _, by simp [encode_movAccForm, hop, encodeWord]⟩
    case fam5 a =>
      obtain ⟨reg, rm, rfl, hwf, rfl⟩ := decodeRmReg_ok h
      exact ⟨by rw [wellFormed_rmRegForm, hwf], by simp only [encode_rmRegForm, encodeArithRmReg, hop, List.cons_append]⟩
    case fam6 =>
      obtain ⟨a, rm, imm, rfl, hwf, rfl⟩ := decodeArithRmImm_ok h
      exact ⟨hwf, by simp only [encode_rmImmForm, encodeArithRmImm, hop, List.cons_append, List.append_assoc]⟩
    case fam7 a =>
      obtain ⟨imm, afterImm, himm, h⟩ := Decoded.andThen_ok h
      cases h
      obtain ⟨hmatches, rfl⟩ := decodeImm_ok himm
      exact ⟨by rw [wellFormed_accImmForm, hmatches], by simp only [encode_accImmForm, encodeAccImm, hop, List.cons_append]⟩
    case fam8 j =>
      obtain ⟨rel, afterRel, hrel, h⟩ := Decoded.andThen_ok h
      cases h
      obtain rfl := take1_ok hrel
      exact ⟨wellFormed_jumpForm j rel, by rw [encode_jumpForm, hop]; rfl⟩
    case unsupported => cases h

/-! The length of an instruction (30_encoding R47) -/

/-- Every encoding is at least two bytes long, and as long as the table gives for its first two. -/
theorem encode_length : ∀ i : Instr, Laws.EncodeLength.Statement i
  | .movRmReg d w reg rm => Laws.EncodeLength.movRmReg d w reg rm
  | .movRmImm w unused rm imm => Laws.EncodeLength.movRmImm w unused rm imm
  | .movRegImm w reg imm => Laws.EncodeLength.movRegImm w reg imm
  | .movAccMem w addr => Laws.EncodeLength.movAccMem w addr
  | .movMemAcc w addr => Laws.EncodeLength.movMemAcc w addr
  | .addRmReg d w reg rm => Laws.EncodeLength.addRmReg d w reg rm
  | .subRmReg d w reg rm => Laws.EncodeLength.subRmReg d w reg rm
  | .cmpRmReg d w reg rm => Laws.EncodeLength.cmpRmReg d w reg rm
  | .addRmImm sgn w rm imm => Laws.EncodeLength.addRmImm sgn w rm imm
  | .subRmImm sgn w rm imm => Laws.EncodeLength.subRmImm sgn w rm imm
  | .cmpRmImm sgn w rm imm => Laws.EncodeLength.cmpRmImm sgn w rm imm
  | .addAccImm w imm => Laws.EncodeLength.addAccImm w imm
  | .subAccImm w imm => Laws.EncodeLength.subAccImm w imm
  | .cmpAccImm w imm => Laws.EncodeLength.cmpAccImm w imm
  | .je rel => Laws.EncodeLength.je rel
  | .jl rel => Laws.EncodeLength.jl rel
  | .jle rel => Laws.EncodeLength.jle rel
  | .jb rel => Laws.EncodeLength.jb rel
  | .jbe rel => Laws.EncodeLength.jbe rel
  | .jp rel => Laws.EncodeLength.jp rel
  | .jo rel => Laws.EncodeLength.jo rel
  | .js rel => Laws.EncodeLength.js rel
  | .jne rel => Laws.EncodeLength.jne rel
  | .jnl rel => Laws.EncodeLength.jnl rel
  | .jnle rel => Laws.EncodeLength.jnle rel
  | .jnb rel => Laws.EncodeLength.jnb rel
  | .jnbe rel => Laws.EncodeLength.jnbe rel
  | .jnp rel => Laws.EncodeLength.jnp rel
  | .jno rel => Laws.EncodeLength.jno rel

/-- The record an instruction emits is as long as its encoding. -/
theorem recordOf_len (i : Instr) : ∃ r, recordOf i = some r ∧ r.len = (encode i).length := by
  cases i with
  | movRmReg d w reg rm | addRmReg d w reg rm | subRmReg d w reg rm | cmpRmReg d w reg rm =>
    refine ⟨_, recordOf_of_emit fun _ => rfl, ?_⟩
    simp [rmRegRecord, encode, encodeArithRmReg, encodeDisp_length]
    omega
  | movRmImm w reg rm imm | addRmImm sgn w rm imm | subRmImm sgn w rm imm | cmpRmImm sgn w rm imm =>
    refine ⟨_, recordOf_of_emit fun _ => rfl, ?_⟩
    simp [rmImmRecord, encode, encodeArithRmImm, encodeDisp_length, encodeImm_length]
    omega
  | movRegImm w reg imm | addAccImm w imm | subAccImm w imm | cmpAccImm w imm =>
    refine ⟨_, recordOf_of_emit fun _ => rfl, ?_⟩
    simp [regImmRecord, encode, encodeAccImm, encodeImm_length, Nat.add_comm]
  | movAccMem | movMemAcc | je | jl | jle | jb | jbe | jp | jo | js | jne | jnl | jnle | jnb | jnbe | jnp | jno =>
    exact ⟨_, recordOf_of_emit fun _ => rfl, rfl⟩

/-- Whatever decodes has consumed at least two bytes, as many as the table gives for the first two. -/
theorem consumed_of_decode {bytes rest : List Byte} {i : Instr} (h : decode bytes = .ok i rest) :
    ∃ op m tail, bytes = op :: m :: (tail ++ rest) ∧ (encode i).length = lengthFor op m ∧ tail.length + 2 = lengthFor op m := by
  obtain ⟨hwf, hbytes⟩ := encode_of_decode h
  obtain ⟨op, m, tail, hencode, hlength⟩ := encode_length i hwf
  refine ⟨op, m, tail, by rw [hbytes, hencode]; rfl, hlength, ?_⟩
  rw [← hlength, hencode]
  rfl

/-- Settles O21: a decode consumes two bytes or more, and its record is as long as what it consumed (30_encoding R47). -/
theorem lengthByFirstTwoBytes : Obligations.LengthByFirstTwoBytes := by
  refine ⟨fun op i rest h => ?oneByte, fun op m bytes i rest h => ?table⟩
  case oneByte =>
    obtain ⟨_, _, _, hbytes, -, -⟩ := consumed_of_decode h
    simp at hbytes
  case table =>
    obtain ⟨_, _, tail, hbytes, hencode, htail⟩ := consumed_of_decode h
    obtain ⟨rfl, rfl, rfl⟩ : op = _ ∧ m = _ ∧ bytes = tail ++ rest := by simpa using hbytes
    obtain ⟨r, hr, hlen⟩ := recordOf_len i
    refine ⟨?_, r, hr, hlen.trans hencode⟩
    rw [List.length_append]
    omega

/-! The text of a displacement (30_encoding R57, R75) -/

@[simp] theorem renderOperand_mem (rm : Index) (d : Disp) :
    renderOperand (.mem rm d) = "[" ++ baseExpression rm ++ renderDisp d ++ "]" := rfl

/-- With one base, memory operands have the same text exactly when their displacements have. -/
theorem renderOperand_mem_eq_iff (rm : Index) (d e : Disp) :
    renderOperand (.mem rm d) = renderOperand (.mem rm e) ↔ renderDisp d = renderDisp e := by
  simp [String.append_left_inj, String.append_right_inj]

/-- The text of a displacement depends on its number, not on the bytes it was read from. -/
theorem renderDisp_zeroExtend (v : Byte) : renderDisp (.disp16 (v.zeroExtend 16)) = renderDisp (.disp8 v) := by
  have hfits : v.toNat < 2 ^ 16 := by omega
  simp only [renderDisp, BitVec.zeroExtend, BitVec.toNat_setWidth, Nat.mod_eq_of_lt hfits]

theorem renderDisp_zero_ne_noDisp :
    renderDisp (.disp8 0) ≠ renderDisp .noDisp ∧ renderDisp (.disp16 0) ≠ renderDisp .noDisp := by decide

/-- Settles O45: the operands differ by their displacement's constructor; the texts compare as their displacements' texts. -/
theorem displacementKept : Obligations.DisplacementKept := by
  obtain ⟨hzero8, hzero16⟩ := renderDisp_zero_ne_noDisp
  refine ⟨fun rm w => ⟨rfl, rfl, ?_, ?_, ?_, ?_⟩, fun rm v w => ⟨?_, ?_, ?_⟩⟩
  · simp [rmOperand]
  · simp [rmOperand]
  · rwa [Ne, renderOperand_mem_eq_iff]
  · rwa [Ne, renderOperand_mem_eq_iff]
  · rw [renderOperand_mem_eq_iff, renderDisp_zeroExtend]
  · simp [rmOperand]
  · simp [dispLength]

@[simp] theorem sdec_natCast (n : Nat) : sdec n = dec n := by simp [sdec]

theorem sdec_neg_natCast {n : Nat} (h : 0 < n) : sdec (-(n : Int)) = "-" ++ dec n := by
  have hneg : ¬ (0 : Int) ≤ -(n : Int) := by omega
  rw [sdec, if_neg hneg, Int.neg_neg, Int.toNat_natCast]

/-- Settles O47: the two signs of `SDec` (30_encoding R75), and the two's-complement range of a byte. -/
theorem jumpText : Obligations.JumpText :=
  ⟨fun n => ⟨sdec_natCast n, sdec_neg_natCast⟩,
    fun b => ⟨(signed8_bounds b).1, (signed8_bounds b).2, signed8_eq_toInt b⟩⟩

end Sys2Proof.Machine
end

section
/-! The exception statements (60_exceptions): the clean end. -/

namespace Sys2Proof.Machine

open Sys2Proof.Safety

/-- The step of a running state at the end of the source is the clean end (60_exceptions R111). -/
theorem step_at_end {s : State} (hr : Running s) (hend : s.pos = s.len) : step s = .next (cleanEnd s) := by
  rw [step, cycle, whenRunning_of_running hr, if_pos hend]

/-- Settles O24: at `pos = LEN` the step is `cleanEnd`, which writes `status` alone; an empty source is at its end from the
first step on, so that step keeps the empty `out`. -/
theorem cleanEndStep : Obligations.CleanEndStep := by
  refine ⟨fun s hr hend => step_at_end hr hend, fun s t hr hlen hpos hout hstep => ?_⟩
  have ht : cleanEnd s = t := by
    have hend : s.pos = s.len := hpos.trans hlen.symm
    exact Host.Outcome.next.inj ((step_at_end hr hend).symm.trans hstep)
  subst ht
  exact ⟨cleanEnd_status s, (cleanEnd_out s).trans hout⟩

end Sys2Proof.Machine
end

section
/-! The round trip of decoder and encoder (30_encoding R46 to R49). -/

namespace Sys2Proof.Machine

open Sys2Proof.Safety

/-! The decoder reads back the encoder's opcode bytes: class and fields (30_encoding R41, R46, R48) -/

theorem opcode_movRmReg (d : Direction) (w : Width) :
    let op : Byte := 0b100010#6 ++ directionBit d ++ widthBit w
    classify op = .fam1 ∧ directionOf op = d ∧ widthAt op 0 = w := by
  cases d <;> cases w <;> decide

theorem opcode_movRmImm (w : Width) :
    let op : Byte := 0b1100011#7 ++ widthBit w
    classify op = .fam2 ∧ widthAt op 0 = w := by
  cases w <;> decide

theorem opcode_movRegImm (w : Width) : ∀ reg : Index,
    let op : Byte := 0b1011#4 ++ widthBit w ++ reg
    classify op = .fam3 ∧ widthAt op 3 = w ∧ op.extractLsb' 0 3 = reg := by
  cases w <;> decide

theorem opcode_movAccMem (w : Width) :
    let op : Byte := 0b1010000#7 ++ widthBit w
    classify op = .fam4 ∧ widthAt op 0 = w ∧ toMemoryOf op = false := by
  cases w <;> decide

theorem opcode_movMemAcc (w : Width) :
    let op : Byte := 0b1010001#7 ++ widthBit w
    classify op = .fam4 ∧ widthAt op 0 = w ∧ toMemoryOf op = true := by
  cases w <;> decide

theorem opcode_arithRmReg (a : ArithOp) (d : Direction) (w : Width) :
    let op : Byte := 0b00#2 ++ arithBits a ++ 0b0#1 ++ directionBit d ++ widthBit w
    classify op = .fam5 a ∧ directionOf op = d ∧ widthAt op 0 = w := by
  cases a <;> cases d <;> cases w <;> decide

theorem opcode_arithRmImm (sgn : Bool) (w : Width) :
    let op : Byte := 0b100000#6 ++ BitVec.ofBool sgn ++ widthBit w
    classify op = .fam6 ∧ signOf op = sgn ∧ widthAt op 0 = w := by
  cases sgn <;> cases w <;> decide

theorem opcode_arithAccImm (a : ArithOp) (w : Width) :
    let op : Byte := 0b00#2 ++ arithBits a ++ 0b10#2 ++ widthBit w
    classify op = .fam7 a ∧ widthAt op 0 = w := by
  cases a <;> cases w <;> decide

theorem arithOfExt_arithBits (a : ArithOp) : arithOfExt (arithBits a) = some a := by cases a <;> rfl

/-! The body of each family reads back what the encoder wrote after the opcode byte -/

theorem decodeRmReg_encode (mk : Direction → Width → Index → RmField → Instr) (op : Byte) (reg : Index) {rm : RmField}
    (h : rm.wellFormed = true) (rest : List Byte) :
    decodeRmReg mk op (addressingByte reg rm :: encodeDisp rm ++ rest) =
      .ok (mk (directionOf op) (widthAt op 0) reg rm) rest := by
  simp [decodeRmReg, decodeRm_encode reg rm h, regOf_addressingByte]

theorem decodeMovRmImm_encode (op : Byte) (unused : Index) {rm : RmField} {imm : ImmField} (h : rm.wellFormed = true)
    (himm : imm.matches (twoByWidth (widthAt op 0)) = true) (rest : List Byte) :
    decodeMovRmImm op (addressingByte unused rm :: (encodeDisp rm ++ encodeImm imm) ++ rest) =
      .ok (.movRmImm (widthAt op 0) unused rm imm) rest := by
  simp [decodeMovRmImm, decodeRm_encode unused rm h, decodeImm_encode _ _ imm himm, regOf_addressingByte]

theorem decodeArithRmImm_encode (a : ArithOp) (op : Byte) {rm : RmField} {imm : ImmField} (h : rm.wellFormed = true)
    (himm : imm.matches (twoBySw (signOf op) (widthAt op 0)) = true) (rest : List Byte) :
    decodeArithRmImm op (addressingByte (arithBits a) rm :: (encodeDisp rm ++ encodeImm imm) ++ rest) =
      .ok (rmImmForm a (signOf op) (widthAt op 0) rm imm) rest := by
  simp [decodeArithRmImm, decodeRm_encode _ rm h, decodeImm_encode _ _ imm himm, regOf_addressingByte, arithOfExt_arithBits]

theorem decodeMovAcc_encode (op : Byte) (addr : Word) (rest : List Byte) :
    decodeMovAcc op (encodeWord addr ++ rest) =
      .ok (if toMemoryOf op then .movMemAcc (widthAt op 0) addr else .movAccMem (widthAt op 0) addr) rest := by
  simp [decodeMovAcc, take2_encodeWord]

theorem decode_encode_arithRmReg (a : ArithOp) (d : Direction) (w : Width) (reg : Index) {rm : RmField}
    (h : rm.wellFormed = true) (rest : List Byte) :
    decode (encodeArithRmReg a d w reg rm ++ rest) = .ok (rmRegForm a d w reg rm) rest := by
  obtain ⟨hclass, hd, hw⟩ := opcode_arithRmReg a d w
  simp only [encodeArithRmReg, List.cons_append, decode, hclass]
  exact (decodeRmReg_encode _ _ reg h rest).trans (by rw [hd, hw])

theorem decode_encode_arithRmImm (a : ArithOp) (sgn : Bool) (w : Width) {rm : RmField} {imm : ImmField}
    (h : (rm.wellFormed && imm.matches (twoBySw sgn w)) = true) (rest : List Byte) :
    decode (encodeArithRmImm a sgn w rm imm ++ rest) = .ok (rmImmForm a sgn w rm imm) rest := by
  obtain ⟨hclass, hsgn, hw⟩ := opcode_arithRmImm sgn w
  obtain ⟨hrm, himm⟩ := Bool.and_eq_true_iff.mp h
  simp only [encodeArithRmImm, List.cons_append, decode, hclass]
  exact (decodeArithRmImm_encode a _ hrm (by rw [hsgn, hw]; exact himm) rest).trans (by rw [hsgn, hw])

theorem decode_encode_accImm (a : ArithOp) (w : Width) {imm : ImmField} (h : imm.matches (twoByWidth w) = true)
    (rest : List Byte) : decode (encodeAccImm a w imm ++ rest) = .ok (accImmForm a w imm) rest := by
  obtain ⟨hclass, hw⟩ := opcode_arithAccImm a w
  simp only [encodeAccImm, List.cons_append, decode, hclass, decodeAccImm, hw, decodeImm_encode _ _ imm h,
    Decoded.andThen_ok_eq]

theorem decode_encode_jump (j : JumpOp) (rel : Byte) (rest : List Byte) :
    decode (encode (jumpForm j rel) ++ rest) = .ok (jumpForm j rel) rest := by
  cases j <;> rfl

/-- Settles O11: by constructor, the opcode byte gives the class and the fields back, and the body of that class reads back the
bytes after it. -/
theorem decodeOfEncode : Obligations.DecodeOfEncode := by
  intro i rest h
  cases i with
  | movRmReg d w reg rm =>
    obtain ⟨hclass, hd, hw⟩ := opcode_movRmReg d w
    simp only [encode, List.cons_append, decode, hclass]
    exact (decodeRmReg_encode _ _ reg h rest).trans (by rw [hd, hw])
  | movRmImm w unused rm imm =>
    obtain ⟨hclass, hw⟩ := opcode_movRmImm w
    obtain ⟨hrm, himm⟩ := Bool.and_eq_true_iff.mp h
    simp only [encode, List.cons_append, decode, hclass]
    exact (decodeMovRmImm_encode _ unused hrm (by rw [hw]; exact himm) rest).trans (by rw [hw])
  | movRegImm w reg imm =>
    obtain ⟨hclass, hw, hreg⟩ := opcode_movRegImm w reg
    simp only [encode, List.cons_append, decode, hclass, decodeMovRegImm, hw, hreg, decodeImm_encode _ _ imm h,
      Decoded.andThen_ok_eq]
  | movAccMem w addr =>
    obtain ⟨hclass, hw, hdir⟩ := opcode_movAccMem w
    simp only [encode, List.cons_append, decode, hclass, decodeMovAcc_encode, hw, hdir]
    rfl
  | movMemAcc w addr =>
    obtain ⟨hclass, hw, hdir⟩ := opcode_movMemAcc w
    simp only [encode, List.cons_append, decode, hclass, decodeMovAcc_encode, hw, hdir]
    rfl
  | addRmReg d w reg rm => exact decode_encode_arithRmReg .add d w reg h rest
  | subRmReg d w reg rm => exact decode_encode_arithRmReg .sub d w reg h rest
  | cmpRmReg d w reg rm => exact decode_encode_arithRmReg .cmp d w reg h rest
  | addRmImm sgn w rm imm => exact decode_encode_arithRmImm .add sgn w h rest
  | subRmImm sgn w rm imm => exact decode_encode_arithRmImm .sub sgn w h rest
  | cmpRmImm sgn w rm imm => exact decode_encode_arithRmImm .cmp sgn w h rest
  | addAccImm w imm => exact decode_encode_accImm .add w h rest
  | subAccImm w imm => exact decode_encode_accImm .sub w h rest
  | cmpAccImm w imm => exact decode_encode_accImm .cmp w h rest
  | je rel => exact decode_encode_jump .je rel rest
  | jl rel => exact decode_encode_jump .jl rel rest
  | jle rel => exact decode_encode_jump .jle rel rest
  | jb rel => exact decode_encode_jump .jb rel rest
  | jbe rel => exact decode_encode_jump .jbe rel rest
  | jp rel => exact decode_encode_jump .jp rel rest
  | jo rel => exact decode_encode_jump .jo rel rest
  | js rel => exact decode_encode_jump .js rel rest
  | jne rel => exact decode_encode_jump .jne rel rest
  | jnl rel => exact decode_encode_jump .jnl rel rest
  | jnle rel => exact decode_encode_jump .jnle rel rest
  | jnb rel => exact decode_encode_jump .jnb rel rest
  | jnbe rel => exact decode_encode_jump .jnbe rel rest
  | jnp rel => exact decode_encode_jump .jnp rel rest
  | jno rel => exact decode_encode_jump .jno rel rest

/-- Settles O12: it is `encode_of_decode`. -/
theorem encodeOfDecode : Obligations.EncodeOfDecode := fun _ _ _ h => encode_of_decode h

end Sys2Proof.Machine
end

section
/-! Which bytes decode, which fault, and how many are read: the decoder against the tables of 30_encoding R47, R66, R67 and
60_exceptions R114, R115. -/

namespace Sys2Proof.Machine

open Sys2Proof.Safety

/-! Readers of a fixed number of bytes -/

/-- The read `x` takes exactly `n` of the bytes: with fewer it is a ShortRead that carries `ext`, with enough it answers and
leaves the others. -/
def TakesExactly {α : Type} (n : Nat) (ext : Option Byte) (bytes : List Byte) (x : Decoded α) : Prop :=
  (bytes.length < n → x = .error { fault := .shortRead, ext := ext }) ∧
  (n ≤ bytes.length → ∃ a rest, x = .ok a rest ∧ rest.length + n = bytes.length)

theorem takesExactly_ok {α : Type} (ext : Option Byte) (bytes : List Byte) (a : α) :
    TakesExactly 0 ext bytes (.ok a bytes) :=
  ⟨fun h => absurd h (Nat.not_lt_zero _), fun _ => ⟨a, bytes, rfl, rfl⟩⟩

/-- Two reads one after the other take what they take together. -/
theorem TakesExactly.andThen {α β : Type} {n k : Nat} {ext : Option Byte} {bytes : List Byte} {x : Decoded α}
    {f : α → List Byte → Decoded β} (hx : TakesExactly n ext bytes x) (hf : ∀ a rest, TakesExactly k ext rest (f a rest)) :
    TakesExactly (n + k) ext bytes (x.andThen f) := by
  by_cases hn : bytes.length < n
  · rw [hx.1 hn]
    exact ⟨fun _ => rfl, fun h => absurd hn (by omega)⟩
  · obtain ⟨a, rest, rfl, hrest⟩ := hx.2 (by omega)
    obtain ⟨hshort, hlong⟩ := hf a rest
    refine ⟨fun h => hshort (by omega), fun h => ?_⟩
    obtain ⟨b, rest', hb, hrest'⟩ := hlong (by omega)
    exact ⟨b, rest', hb, by omega⟩

theorem takesExactly_take1 (ext : Option Byte) (bytes : List Byte) : TakesExactly 1 ext bytes (take1 ext bytes) := by
  refine ⟨fun h => take1_short ext h, fun h => ?_⟩
  match bytes with
  | b :: rest => exact ⟨b, rest, rfl, rfl⟩

theorem takesExactly_take2 (ext : Option Byte) (bytes : List Byte) : TakesExactly 2 ext bytes (take2 ext bytes) := by
  refine ⟨fun h => take2_short ext h, fun h => ?_⟩
  match bytes with
  | lo :: hi :: rest => exact ⟨word16 lo hi, rest, rfl, rfl⟩

theorem takesExactly_decodeRm (m : Byte) (bytes : List Byte) :
    TakesExactly (dispLenOf m) (some m) bytes (decodeRm m bytes) :=
  ⟨decodeRm_short, decodeRm_long⟩

/-- The number of immediate bytes the control bits ask for (30_encoding R60, R61). -/
def immBytes (two : Bool) : Nat := if two then 2 else 1

theorem takesExactly_decodeImm (two : Bool) (ext : Option Byte) (bytes : List Byte) :
    TakesExactly (immBytes two) ext bytes (decodeImm two ext bytes) :=
  ⟨decodeImm_short, decodeImm_long⟩

/-! What each family's body takes after the opcode byte, and after the addressing byte where there is one -/

theorem takesExactly_decodeRmReg (mk : Direction → Width → Index → RmField → Instr) (op m : Byte) (bytes : List Byte) :
    TakesExactly (dispLenOf m) (some m) bytes (decodeRmReg mk op (m :: bytes)) :=
  (takesExactly_decodeRm m bytes).andThen fun _ _ => takesExactly_ok _ _ _

theorem takesExactly_decodeMovRmImm (op m : Byte) (bytes : List Byte) :
    TakesExactly (dispLenOf m + immBytes (twoByWidth (widthAt op 0))) (some m) bytes (decodeMovRmImm op (m :: bytes)) :=
  (takesExactly_decodeRm m bytes).andThen fun _ rest =>
    (takesExactly_decodeImm _ _ rest).andThen fun _ _ => takesExactly_ok _ _ _

theorem takesExactly_decodeArithRmImm {a : ArithOp} {m : Byte} (h : arithOfExt (regOf m) = some a) (op : Byte)
    (bytes : List Byte) :
    TakesExactly (dispLenOf m + immBytes (twoBySw (signOf op) (widthAt op 0))) (some m) bytes
      (decodeArithRmImm op (m :: bytes)) := by
  rw [decodeArithRmImm, take1_cons, Decoded.andThen_ok_eq, h]
  exact (takesExactly_decodeRm m bytes).andThen fun _ rest =>
    (takesExactly_decodeImm _ _ rest).andThen fun _ _ => takesExactly_ok _ _ _

theorem takesExactly_decodeMovRegImm (op : Byte) (bytes : List Byte) :
    TakesExactly (immBytes (twoByWidth (widthAt op 3))) none bytes (decodeMovRegImm op bytes) :=
  (takesExactly_decodeImm _ _ bytes).andThen fun _ _ => takesExactly_ok _ _ _

theorem takesExactly_decodeMovAcc (op : Byte) (bytes : List Byte) : TakesExactly 2 none bytes (decodeMovAcc op bytes) :=
  (takesExactly_take2 none bytes).andThen fun _ _ => takesExactly_ok _ _ _

theorem takesExactly_decodeAccImm (a : ArithOp) (op : Byte) (bytes : List Byte) :
    TakesExactly (immBytes (twoByWidth (widthAt op 0))) none bytes (decodeAccImm a op bytes) :=
  (takesExactly_decodeImm _ _ bytes).andThen fun _ _ => takesExactly_ok _ _ _

theorem takesExactly_decodeJump (j : JumpOp) (bytes : List Byte) : TakesExactly 1 none bytes (decodeJump j bytes) :=
  (takesExactly_take1 none bytes).andThen fun _ _ => takesExactly_ok _ _ _

/-- The extension check of family 6 fails at once, whatever follows the addressing byte (30_encoding R67, decision D8). -/
theorem decodeArithRmImm_unsupported {m : Byte} (h : arithOfExt (regOf m) = none) (op : Byte) (bytes : List Byte) :
    decodeArithRmImm op (m :: bytes) = .error { fault := .unsupportedOpcode, ext := some m } := by
  rw [decodeArithRmImm, take1_cons, Decoded.andThen_ok_eq, h]

/-! The tables by opcode byte, read off the class of the byte -/

/-- The classes with an addressing byte: families 1, 2, 5, 6 (30_encoding R40). -/
def classAddressed : OpClass → Bool
  | .fam1 | .fam2 | .fam5 _ | .fam6 => true
  | .fam3 | .fam4 | .fam7 _ | .fam8 _ | .unsupported => false

/-- The length of an instruction without its displacement bytes (30_encoding R47). -/
def fixedLength (op : Byte) : OpClass → Nat
  | .fam1 | .fam5 _ => 2
  | .fam2 => 2 + immBytes (twoByWidth (widthAt op 0))
  | .fam3 => 1 + immBytes (twoByWidth (widthAt op 3))
  | .fam4 => 3
  | .fam6 => 2 + immBytes (twoBySw (signOf op) (widthAt op 0))
  | .fam7 _ => 1 + immBytes (twoByWidth (widthAt op 0))
  | .fam8 _ | .unsupported => 2

theorem unsupportedByte_eq : ∀ op : Byte, unsupportedByte op = (classify op == .unsupported) := by decide

theorem arithRmImmByte_eq : ∀ op : Byte, arithRmImmByte op = (classify op == .fam6) := by decide

theorem addressed_eq : ∀ op : Byte, addressed op = classAddressed (classify op) := by decide

theorem lengthFor_register_eq : ∀ op : Byte, lengthFor op 0xc0 = fixedLength op (classify op) := by decide

/-- The addressing byte enters the length by its displacement bytes, and only where the family has one. -/
theorem lengthFor_eq (op m : Byte) :
    lengthFor op m = fixedLength op (classify op) + if addressed op then dispLenOf m else 0 := by
  rw [← lengthFor_register_eq]
  unfold lengthFor addressed
  rw [show dispLenOf 0xc0 = 0 from rfl]
  cases rmRegByte op with
  | true => simp
  | false =>
    cases movRmImmByte op with
    | true => simp [Nat.add_right_comm]
    | false => cases arithRmImmByte op <;> simp [Nat.add_right_comm]

theorem unsupportedExt_iff : ∀ m : Byte, unsupportedExt m = true ↔ arithOfExt (regOf m) = none := by decide

/-! The decoder on a supported opcode byte: a ShortRead, or an instruction, by the number of bytes (30_encoding R47) -/

theorem decode_unsupported {op : Byte} (h : unsupportedByte op = true) (tail : List Byte) :
    decode (op :: tail) = .error { fault := .unsupportedOpcode, ext := none } := by
  rw [unsupportedByte_eq, beq_iff_eq] at h
  rw [decode, h]

theorem decode_unsupportedExt {op m : Byte} (hop : arithRmImmByte op = true) (hm : unsupportedExt m = true)
    (tail : List Byte) : decode (op :: m :: tail) = .error { fault := .unsupportedOpcode, ext := some m } := by
  rw [arithRmImmByte_eq, beq_iff_eq] at hop
  simp only [decode, hop]
  exact decodeArithRmImm_unsupported ((unsupportedExt_iff m).mp hm) op tail

/-- A family with an addressing byte, and no byte after the opcode byte. -/
theorem decode_no_addressing {op : Byte} (h : addressed op = true) :
    decode [op] = .error { fault := .shortRead, ext := none } := by
  rw [addressed_eq] at h
  rw [decode]
  cases hclass : classify op <;> simp only [hclass, classAddressed, Bool.false_eq_true] at h ⊢ <;> rfl

/-- A family without an addressing byte takes, after the opcode byte, what the table of lengths says. -/
theorem takesExactly_decode {op : Byte} (hop : unsupportedByte op = false) (h : addressed op = false) (m : Byte)
    (tail : List Byte) : TakesExactly (lengthFor op m - 1) none tail (decode (op :: tail)) := by
  rw [unsupportedByte_eq, beq_eq_false_iff_ne] at hop
  rw [lengthFor_eq, h, decode]
  rw [addressed_eq] at h
  cases hclass : classify op <;>
    simp only [hclass, classAddressed, fixedLength, Bool.true_eq_false, Bool.false_eq_true, if_false, Nat.add_zero,
      Nat.add_sub_cancel_left] at h hop ⊢
  case fam3 => exact takesExactly_decodeMovRegImm op tail
  case fam4 => exact takesExactly_decodeMovAcc op tail
  case fam7 a => exact takesExactly_decodeAccImm a op tail
  case fam8 j => exact takesExactly_decodeJump j tail
  case unsupported => exact absurd rfl hop

/-- A family with an addressing byte takes, after that byte, what the table of lengths says; in family 6, if the extension
selects an operation. -/
theorem takesExactly_decode_addressed {op m : Byte} (h : addressed op = true)
    (hm : ¬ (arithRmImmByte op = true ∧ unsupportedExt m = true)) (tail : List Byte) :
    TakesExactly (lengthFor op m - 2) (some m) tail (decode (op :: m :: tail)) := by
  rw [lengthFor_eq, if_pos h, Nat.add_comm, decode]
  rw [addressed_eq] at h
  rw [arithRmImmByte_eq, beq_iff_eq, unsupportedExt_iff] at hm
  cases hclass : classify op <;>
    simp only [hclass, classAddressed, fixedLength, Bool.false_eq_true, ← Nat.add_assoc, Nat.add_right_comm _ 2,
      Nat.add_sub_cancel] at h hm ⊢
  case fam1 => exact takesExactly_decodeRmReg _ op m tail
  case fam2 => exact takesExactly_decodeMovRmImm op m tail
  case fam5 a => exact takesExactly_decodeRmReg _ op m tail
  case fam6 =>
    obtain ⟨a, ha⟩ := Option.ne_none_iff_exists'.mp fun hnone => hm ⟨trivial, hnone⟩
    exact takesExactly_decodeArithRmImm ha op tail

/-! The decoder against the table of causes (60_exceptions R114, R115) -/

theorem addressed_of_unsupportedByte {op : Byte} (h : unsupportedByte op = true) : addressed op = false := by
  rw [unsupportedByte_eq, beq_iff_eq] at h
  rw [addressed_eq, h]
  rfl

theorem addressed_of_arithRmImmByte {op : Byte} (h : arithRmImmByte op = true) : addressed op = true := by simp [addressed, h]

/-- The checks of the table of causes in their order, where it gives a fault. -/
theorem verdict_some {op m : Byte} {avail : Nat} {f : DecodeFault} (h : verdict op m avail = some f) :
    (unsupportedByte op = true ∧ f = .unsupportedOpcode) ∨
    (unsupportedByte op = false ∧ addressed op = true ∧ avail < 2 ∧ f = .shortRead) ∨
    (arithRmImmByte op = true ∧ unsupportedExt m = true ∧ 2 ≤ avail ∧ f = .unsupportedOpcode) ∨
    (unsupportedByte op = false ∧ (addressed op = true → 2 ≤ avail) ∧
      ¬ (arithRmImmByte op = true ∧ unsupportedExt m = true) ∧ avail < lengthFor op m ∧ f = .shortRead) := by
  unfold verdict at h
  simp only [Bool.and_eq_true, decide_eq_true_eq] at h
  split_ifs at h with hop haddr hext hlen <;> cases h
  · exact .inl ⟨hop, rfl⟩
  · exact .inr (.inl ⟨by simpa using hop, haddr.1, haddr.2, rfl⟩)
  · obtain ⟨harith, hm⟩ := hext
    have htwo : ¬ avail < 2 := fun hlt => haddr ⟨addressed_of_arithRmImmByte harith, hlt⟩
    exact .inr (.inr (.inl ⟨harith, hm, by omega, rfl⟩))
  · have htwo : addressed op = true → 2 ≤ avail := fun ha => by by_contra hlt; exact haddr ⟨ha, by omega⟩
    exact .inr (.inr (.inr ⟨by simpa using hop, htwo, hext, hlen, rfl⟩))

/-- The checks of the table of causes, where it gives no fault. -/
theorem verdict_none {op m : Byte} {avail : Nat} (h : verdict op m avail = none) :
    unsupportedByte op = false ∧ (addressed op = true → 2 ≤ avail) ∧
      ¬ (arithRmImmByte op = true ∧ unsupportedExt m = true) ∧ lengthFor op m ≤ avail := by
  unfold verdict at h
  simp only [Bool.and_eq_true, decide_eq_true_eq] at h
  split_ifs at h with hop haddr hext hlen
  have htwo : addressed op = true → 2 ≤ avail := fun ha => by by_contra hlt; exact haddr ⟨ha, by omega⟩
  exact ⟨by simpa using hop, htwo, hext, by omega⟩

/-- Where the table of causes gives a fault, the decoder answers it, with the addressing byte where the family has one and it
exists. -/
theorem decode_of_verdict_some {op m : Byte} {tail : List Byte} {f : DecodeFault} (hm : ∀ b ∈ tail.head?, b = m)
    (h : verdict op m (tail.length + 1) = some f) :
    decode (op :: tail) = .error { fault := f, ext := if addressed op then tail.head? else none } := by
  rcases verdict_some h with ⟨hop, rfl⟩ | ⟨-, haddr, hshort, rfl⟩ | ⟨harith, hext, htail, rfl⟩ | ⟨hop, htail, hext, hshort, rfl⟩
  · rw [decode_unsupported hop, addressed_of_unsupportedByte hop]
    rfl
  · obtain rfl : tail = [] := List.eq_nil_of_length_eq_zero (by omega)
    rw [decode_no_addressing haddr, if_pos haddr]
    rfl
  · obtain ⟨b, tail, rfl⟩ := List.exists_cons_of_length_pos (l := tail) (by omega)
    obtain rfl : b = m := hm b rfl
    rw [decode_unsupportedExt harith hext, if_pos (addressed_of_arithRmImmByte harith)]
    rfl
  · cases haddr : addressed op with
    | true =>
      have := htail haddr
      obtain ⟨b, tail, rfl⟩ := List.exists_cons_of_length_pos (l := tail) (by omega)
      obtain rfl : b = m := hm b rfl
      have hlength : tail.length < lengthFor op b - 2 := by rw [List.length_cons] at hshort; omega
      exact (takesExactly_decode_addressed haddr hext tail).1 hlength
    | false => exact (takesExactly_decode hop haddr m tail).1 (by omega)

/-- Where the table of causes gives no fault, the decoder answers an instruction. -/
theorem decode_of_verdict_none {op m : Byte} {tail : List Byte} (hm : ∀ b ∈ tail.head?, b = m)
    (h : verdict op m (tail.length + 1) = none) : ∃ i rest, decode (op :: tail) = .ok i rest := by
  obtain ⟨hop, htail, hext, hlong⟩ := verdict_none h
  cases haddr : addressed op with
  | true =>
    have := htail haddr
    obtain ⟨b, tail, rfl⟩ := List.exists_cons_of_length_pos (l := tail) (by omega)
    obtain rfl : b = m := hm b rfl
    have hlength : lengthFor op b - 2 ≤ tail.length := by rw [List.length_cons] at hlong; omega
    obtain ⟨i, rest, hi, -⟩ := (takesExactly_decode_addressed haddr hext tail).2 hlength
    exact ⟨i, rest, hi⟩
  | false =>
    obtain ⟨i, rest, hi, -⟩ := (takesExactly_decode hop haddr m tail).2 (by omega)
    exact ⟨i, rest, hi⟩

/-- What decodes has no fault in the table of causes. -/
theorem verdict_of_decode_ok {op m : Byte} {tail rest : List Byte} {i : Instr} (hm : ∀ b ∈ tail.head?, b = m)
    (h : decode (op :: tail) = .ok i rest) : verdict op m (tail.length + 1) = none := by
  cases hv : verdict op m (tail.length + 1) with
  | none => rfl
  | some f => rw [decode_of_verdict_some hm hv] at h; cases h

/-- A decode that fails fails as the table of causes says. -/
theorem verdict_of_decode_error {op m : Byte} {tail : List Byte} {e : DecodeError} (hm : ∀ b ∈ tail.head?, b = m)
    (h : decode (op :: tail) = .error e) :
    verdict op m (tail.length + 1) = some e.fault ∧ e.ext = if addressed op then tail.head? else none := by
  cases hv : verdict op m (tail.length + 1) with
  | none =>
    obtain ⟨i, rest, hi⟩ := decode_of_verdict_none hm hv
    rw [hi] at h
    cases h
  | some f =>
    rw [decode_of_verdict_some hm hv] at h
    cases h
    exact ⟨rfl, rfl⟩

/-! The statements about faults of a decode -/

/-- Settles O13: the whole instruction decodes, so the table of causes gives its bytes no fault; the same checks on fewer bytes
than its length give a ShortRead. -/
theorem truncatedIsShortRead : Obligations.TruncatedIsShortRead := by
  intro i op tail k hwf hencode hk
  obtain ⟨op', m, tail', hencode', hlength⟩ := encode_length i hwf
  obtain ⟨rfl, rfl⟩ : op = op' ∧ tail = m :: tail' := by simpa [hencode] using hencode'
  have hdecode : decode (op :: m :: tail') = .ok i [] := by
    have h := decodeOfEncode i [] hwf
    rwa [hencode, List.append_nil] at h
  obtain ⟨hop, -, hext, -⟩ := verdict_none (verdict_of_decode_ok (m := m) (by simp) hdecode)
  have htake : ((m :: tail').take k).length = k := by rw [List.length_take]; omega
  refine decode_of_verdict_some (m := m) ?head ?verdict
  case head =>
    cases k with
    | zero => simp
    | succ k => simp
  case verdict =>
    have hshort : k + 1 < lengthFor op m := by rw [← hlength, hencode]; simpa using hk
    simp [verdict, htake, hop, hext, hshort]

/-- The number of unsupported opcode bytes among the `n` from `a` on. -/
def unsupportedFrom (a n : Nat) : Nat := ((List.range' a n).filter fun k => unsupportedByte (BitVec.ofNat 8 k)).length

theorem unsupportedFrom_add (a m n : Nat) : unsupportedFrom a (m + n) = unsupportedFrom a m + unsupportedFrom (a + m) n := by
  simp [unsupportedFrom, ← List.range'_append_1]

/-- The unsupported opcode bytes in each quarter of the byte range. -/
theorem unsupportedFrom_quarters :
    unsupportedFrom 0 64 = 46 ∧ unsupportedFrom 64 64 = 49 ∧ unsupportedFrom 128 64 = 36 ∧ unsupportedFrom 192 64 = 62 := by
  decide

theorem unsupportedByte_count : ((List.range 256).filter fun n => unsupportedByte (BitVec.ofNat 8 n)).length = 193 := by
  obtain ⟨h0, h64, h128, h192⟩ := unsupportedFrom_quarters
  rw [List.range_eq_range']
  calc unsupportedFrom 0 (64 + (64 + (64 + 64))) = 46 + (49 + (36 + 62)) := by
        rw [unsupportedFrom_add, unsupportedFrom_add, unsupportedFrom_add, h0, h64, h128, h192]
    _ = 193 := rfl

/-- Settles O19: of the four checks only the first gives UnsupportedOpcode without an addressing byte. -/
theorem unsupportedOpcodeBytes : Obligations.UnsupportedOpcodeBytes := by
  refine ⟨fun op tail => ⟨fun h => ?_, fun hop => decode_unsupported hop tail⟩, unsupportedByte_count⟩
  obtain ⟨hverdict, hnone⟩ := verdict_of_decode_error (m := tail.headD 0) (by cases tail <;> simp) h
  rcases verdict_some hverdict with ⟨hop, -⟩ | ⟨-, -, -, hf⟩ | ⟨harith, -, htail, -⟩ | ⟨-, -, -, -, hf⟩
  · exact hop
  · cases hf
  · obtain ⟨b, tail, rfl⟩ := List.exists_cons_of_length_pos (l := tail) (by omega)
    rw [if_pos (addressed_of_arithRmImmByte harith)] at hnone
    cases hnone
  · cases hf

/-- Settles O20: an opcode byte of family 6 is supported, so only the check of the extension gives UnsupportedOpcode. -/
theorem unsupportedExtensions : Obligations.UnsupportedExtensions := by
  refine fun op m tail hop => ⟨fun h => ?_, fun hm => decode_unsupportedExt hop hm tail⟩
  obtain ⟨hverdict, -⟩ := verdict_of_decode_error (m := m) (by simp) h
  rcases verdict_some hverdict with ⟨hunsupported, -⟩ | ⟨-, -, -, hf⟩ | ⟨-, hext, -, -⟩ | ⟨-, -, -, -, hf⟩
  · have haddr := addressed_of_unsupportedByte hunsupported
    simp [addressed_of_arithRmImmByte hop] at haddr
  · cases hf
  · exact hext
  · cases hf

end Sys2Proof.Machine
end

section
/-! Words of each family, the immediate bytes of a decode, and the byte order of two-byte quantities (20_memory R33, 30_encoding
R60 to R65). -/

namespace Sys2Proof.Machine

open Sys2Proof.Safety

/-- Settles O10: the decoder runs on each of the eight words. -/
theorem wordsDecode : Obligations.WordsDecode := by unfold Obligations.WordsDecode; decide

/-- Settles O15: the equation of each number of bytes, and `decodeImm_short`. -/
theorem immediateDecoder : Obligations.ImmediateDecoder :=
  fun _ _ _ _ => ⟨fun lo hi => ⟨.two (word16 lo hi), rfl, rfl⟩, fun b => ⟨.one b, rfl, rfl⟩, fun _ h => decodeImm_short h⟩

/-! Byte order -/

/-- The word of two bytes is the low one plus 256 times the high one. -/
theorem toNat_word16 (lo hi : Byte) : (word16 lo hi).toNat = lo.toNat + 256 * hi.toNat := by
  have hlo : lo.toNat < 2 ^ 8 := lo.isLt
  have hhi : hi.toNat < 2 ^ 8 := hi.isLt
  have hor : lo.toNat ||| hi.toNat <<< 8 = hi.toNat <<< 8 + lo.toNat := by
    rw [Nat.or_comm, Nat.shiftLeft_add_eq_or_of_lt hlo]
  simp only [word16, BitVec.zeroExtend, BitVec.toNat_or, BitVec.toNat_shiftLeft, BitVec.toNat_setWidth]
  rw [Nat.mod_eq_of_lt (a := lo.toNat) (by omega), Nat.mod_eq_of_lt (a := hi.toNat) (by omega),
    Nat.mod_eq_of_lt (by rw [Nat.shiftLeft_eq]; omega), hor, Nat.shiftLeft_eq]
  omega

theorem toNat_eq_bytes (v : Word) : v.toNat = (lowByte v).toNat + 256 * (highByte v).toNat := by
  rw [← toNat_word16, word16_lowByte_highByte]

@[simp] theorem encodeWord_word16 (lo hi : Byte) : encodeWord (word16 lo hi) = [lo, hi] := by simp [encodeWord]

/-- The displacement bytes of a field that has a 16-bit quantity are that quantity's. -/
theorem encodeDisp_of_fieldWord {f : RmField} {v : Word} (h : fieldWord f = some v) : encodeDisp f = encodeWord v := by
  cases f <;> cases h <;> rfl

theorem encodeImm_of_immWord {imm : ImmField} {v : Word} (h : immWord imm = some v) : encodeImm imm = encodeWord v := by
  cases imm <;> cases h
  rfl

/-- A 16-bit quantity after the addressing byte is encoded in the third and fourth byte. -/
theorem encode_of_wordAfterAddressing {i : Instr} {v : Word} (h : wordAfterAddressing i = some v) :
    ∃ op m tail, encode i = op :: m :: (encodeWord v ++ tail) := by
  cases i with
  | movRmReg d w reg rm | addRmReg d w reg rm | subRmReg d w reg rm | cmpRmReg d w reg rm =>
    exact ⟨_, _, [], by rw [List.append_nil, ← encodeDisp_of_fieldWord h]; rfl⟩
  | movRmImm w reg rm imm | addRmImm sgn w rm imm | subRmImm sgn w rm imm | cmpRmImm sgn w rm imm =>
    exact ⟨_, _, encodeImm imm, by rw [← encodeDisp_of_fieldWord h]; rfl⟩
  | movRegImm | movAccMem | movMemAcc | addAccImm | subAccImm | cmpAccImm | je | jl | jle | jb | jbe | jp | jo | js | jne | jnl
    | jnle | jnb | jnbe | jnp | jno => cases h

/-- A 16-bit quantity an instruction ends in is encoded in its last two bytes. -/
theorem encode_of_wordAtEnd {i : Instr} {v : Word} (h : wordAtEnd i = some v) : ∃ front, encode i = front ++ encodeWord v := by
  cases i with
  | movRmImm w reg rm imm | addRmImm sgn w rm imm | subRmImm sgn w rm imm | cmpRmImm sgn w rm imm =>
    exact ⟨_ :: _ :: encodeDisp rm, by rw [← encodeImm_of_immWord h]; rfl⟩
  | movRegImm w reg imm | addAccImm w imm | subAccImm w imm | cmpAccImm w imm =>
    exact ⟨[_], by rw [← encodeImm_of_immWord h]; rfl⟩
  | movAccMem w addr | movMemAcc w addr => cases h; exact ⟨[_], rfl⟩
  | movRmReg | addRmReg | subRmReg | cmpRmReg | je | jl | jle | jb | jbe | jp | jo | js | jne | jnl | jnle | jnb | jnbe | jnp
    | jno => cases h

/-! Words that decode, as encodings of their instructions -/

/-- Bytes that are the encoding of a well-formed instruction and what follows it decode to it. -/
theorem decode_of_eq_encode {i : Instr} {bytes rest : List Byte} (hwf : i.wellFormed = true) (h : bytes = encode i ++ rest) :
    decode bytes = .ok i rest := by
  rw [h, decodeOfEncode i rest hwf]

/-- Settles O18: what decodes is its instruction's encoding, where each 16-bit quantity stands low byte first; and the five words
are encodings. -/
theorem littleEndian : Obligations.LittleEndian := by
  refine ⟨fun bytes i rest h => ?decoded, fun lo hi rest => ⟨word16 lo hi, toNat_word16 lo hi, ?words⟩⟩
  case decoded =>
    obtain ⟨-, hbytes⟩ := encode_of_decode h
    refine ⟨fun v hv => ?_, fun v hv => ?_⟩
    · obtain ⟨op, m, tail, hencode⟩ := encode_of_wordAfterAddressing hv
      exact ⟨op, m, lowByte v, highByte v, tail ++ rest, by rw [hbytes, hencode]; rfl, toNat_eq_bytes v⟩
    · obtain ⟨front, hencode⟩ := encode_of_wordAtEnd hv
      exact ⟨front, lowByte v, highByte v, by rw [hbytes, hencode, List.append_assoc]; rfl, toNat_eq_bytes v⟩
  case words =>
    refine ⟨decode_of_eq_encode rfl ?_, decode_of_eq_encode rfl ?_, decode_of_eq_encode rfl ?_, decode_of_eq_encode rfl ?_,
      decode_of_eq_encode rfl ?_⟩ <;>
    simp [encode, encodeDisp, encodeImm, addressingByte, directionBit, widthBit]

/-! The number of immediate bytes -/

/-- Family 2: an addressing byte and displacement that decode, and the bytes of an immediate, after the opcode byte. -/
theorem decode_movRmImm (w : Width) {m : Byte} {tail mid rest : List Byte} {rm : RmField} {imm : ImmField}
    (hrm : decodeRm m tail = .ok rm mid) (hmid : mid = encodeImm imm ++ rest) (himm : imm.matches (twoByWidth w) = true) :
    decode ((0b1100011#7 ++ widthBit w : BitVec 8) :: m :: tail) = .ok (.movRmImm w (regOf m) rm imm) rest := by
  obtain ⟨hwf, htail, hm⟩ := decodeRm_ok hrm
  refine decode_of_eq_encode (by simp [Instr.wellFormed, hwf, himm]) ?_
  rw [encode, hm, htail, hmid]
  simp

/-- Family 6: the same, where the extension selects an operation. -/
theorem decode_rmImmForm (sgn : Bool) (w : Width) {m : Byte} {tail mid rest : List Byte} {a : ArithOp} {rm : RmField}
    {imm : ImmField} (ha : arithOfExt (regOf m) = some a) (hrm : decodeRm m tail = .ok rm mid)
    (hmid : mid = encodeImm imm ++ rest) (himm : imm.matches (twoBySw sgn w) = true) :
    decode ((0b100000#6 ++ BitVec.ofBool sgn ++ widthBit w : BitVec 8) :: m :: tail) = .ok (rmImmForm a sgn w rm imm) rest := by
  obtain ⟨hwf, htail, hm⟩ := decodeRm_ok hrm
  refine decode_of_eq_encode (by simp [wellFormed_rmImmForm, hwf, himm]) ?_
  rw [encode_rmImmForm, encodeArithRmImm, arithBits_of_arithOfExt ha, hm, htail, hmid]
  simp

/-- Family 3: the bytes of an immediate after the opcode byte. -/
theorem decode_movRegImm (w : Width) {op : Byte} {reg : Index} {bytes rest : List Byte} {imm : ImmField}
    (hop : op = 0b1011#4 ++ widthBit w ++ reg) (hbytes : bytes = encodeImm imm ++ rest)
    (himm : imm.matches (twoByWidth w) = true) : decode (op :: bytes) = .ok (.movRegImm w reg imm) rest :=
  decode_of_eq_encode himm (by rw [encode, hop, hbytes, List.cons_append])

theorem opcode_movRegImm_narrow : ∀ reg : Index, (0b10110#5 ++ reg : BitVec 8) = 0b1011#4 ++ widthBit .narrow ++ reg := by
  decide

theorem opcode_movRegImm_wide : ∀ reg : Index, (0b10111#5 ++ reg : BitVec 8) = 0b1011#4 ++ widthBit .wide ++ reg := by
  decide

/-- Family 7: the bytes of an immediate after the opcode byte. -/
theorem decode_accImmForm (a : ArithOp) (w : Width) {bytes rest : List Byte} {imm : ImmField}
    (hbytes : bytes = encodeImm imm ++ rest) (himm : imm.matches (twoByWidth w) = true) :
    decode ((0b00#2 ++ arithBits a ++ 0b10#2 ++ widthBit w : BitVec 8) :: bytes) = .ok (accImmForm a w imm) rest := by
  refine decode_of_eq_encode (by rw [wellFormed_accImmForm, himm]) ?_
  rw [encode_accImmForm, encodeAccImm, hbytes, List.cons_append]

/-- The immediate of the record of family 6. -/
theorem immediateOf_rmImmForm (a : ArithOp) (sgn : Bool) (w : Width) (rm : RmField) (imm : ImmField) :
    immediateOf (rmImmForm a sgn w rm imm) = immediateOfOperand (immOperand imm (explicitTag rm) (sxBySw sgn w)) := by
  cases a <;> rfl

/-- Settles O16: each word is the encoding of its instruction, whose immediate has the number of bytes its `w` asks for. -/
theorem widthSelectsImmediateBytes : Obligations.WidthSelectsImmediateBytes := by
  intro b0 b1 rest
  have htwo : b0 :: b1 :: rest = encodeImm (.two (word16 b0 b1)) ++ rest := by simp [encodeImm]
  exact ⟨fun m tail rm hrm => ⟨decode_movRmImm .narrow hrm rfl rfl, decode_movRmImm .wide hrm htwo rfl⟩,
    fun reg => ⟨decode_movRegImm .narrow (opcode_movRegImm_narrow reg) rfl rfl,
      decode_movRegImm .wide (opcode_movRegImm_wide reg) htwo rfl⟩,
    ⟨decode_accImmForm .add .narrow rfl rfl, decode_accImmForm .add .wide htwo rfl⟩,
    ⟨decode_accImmForm .sub .narrow rfl rfl, decode_accImmForm .sub .wide htwo rfl⟩,
    ⟨decode_accImmForm .cmp .narrow rfl rfl, decode_accImmForm .cmp .wide htwo rfl⟩, toNat_word16 b0 b1⟩

/-- Settles O17: the extension selects an operation, and each of the four words is the encoding of its form of family 6. -/
theorem swSelectsImmediateBytes : Obligations.SwSelectsImmediateBytes := by
  intro m b0 b1 tail rest rm hext hrm
  have htwo : b0 :: b1 :: rest = encodeImm (.two (word16 b0 b1)) ++ rest := by simp [encodeImm]
  obtain ⟨a, ha⟩ := Option.ne_none_iff_exists'.mp (mt (unsupportedExt_iff m).mpr (by simp [hext]))
  exact ⟨rmImmForm a false .narrow rm (.one b0), rmImmForm a false .wide rm (.two (word16 b0 b1)),
    rmImmForm a true .narrow rm (.one b0), rmImmForm a true .wide rm (.one b0),
    decode_rmImmForm false .narrow ha hrm rfl rfl, immediateOf_rmImmForm _ _ _ _ _,
    decode_rmImmForm false .wide ha hrm htwo rfl, immediateOf_rmImmForm _ _ _ _ _,
    decode_rmImmForm true .narrow ha hrm rfl rfl, immediateOf_rmImmForm _ _ _ _ _,
    decode_rmImmForm true .wide ha hrm rfl rfl, immediateOf_rmImmForm _ _ _ _ _⟩

end Sys2Proof.Machine
end

section
/-! What each instruction emits (40_mov, 41_arith, 42_jcc), and its frame. -/

namespace Sys2Proof.Machine

open Sys2Proof.Safety

/-- An instruction whose meaning is to emit `r` leads, where a step is enabled, to the state with `r` appended. -/
theorem exec_of_running {s : State} (hr : Running s) {i : Instr} {r : Record} (h : exec i s = emit r s) :
    exec i s = .next (emitted r s) :=
  h.trans (emit_of_running hr r)

/-! The record shapes, in the words of the statements -/

theorem rmRegRecord_eq (mn : Mnemonic) (fam : Family) (d : Direction) (w : Width) (reg : Index) (rm : RmField) :
    rmRegRecord mn fam d w reg rm =
      { mn := mn
        ops := if d = .toReg then [.reg reg w, rmOperand rm w] else [rmOperand rm w, .reg reg w]
        fam := fam
        len := 2 + dispLength rm } := by
  cases d <;> rfl

/-- The tag is set exactly when the destination is no register (30_encoding R63). -/
theorem rmImmRecord_eq (mn : Mnemonic) (fam : Family) (w : Width) (rm : RmField) (imm : ImmField) (sx : Bool) :
    rmImmRecord mn fam w rm imm sx =
      { mn := mn
        ops := [rmOperand rm w, immOperand imm (!isReg (rmOperand rm w)) sx]
        fam := fam
        len := 2 + dispLength rm + immLength imm } := by
  rw [isReg_rmOperand, Bool.not_not]
  rfl

theorem sxBySw_eq (sgn : Bool) (w : Width) : sxBySw sgn w = (sgn && decide (w = .wide)) := by cases w <;> rfl

theorem jumpRecord_eq (mn : Mnemonic) (rel : Byte) :
    jumpRecord mn rel = { mn := mn, ops := [.rel rel.toInt], fam := .fam8, len := 2 } := by
  rw [← signed8_eq_toInt]
  rfl

/-! The families -/

/-- Settles O1: it emits the record of `rmRegRecord`. -/
theorem movRmRegEmits : Obligations.MovRmRegEmits := by
  intro d w reg rm s hr
  rw [exec_of_running hr rfl, rmRegRecord_eq]
  rfl

/-- Settles O2: it emits the record of `rmImmRecord`, with `sx` clear. -/
theorem movRmImmEmits : Obligations.MovRmImmEmits := by
  intro w unused rm imm s hr
  rw [exec_of_running hr rfl, rmImmRecord_eq]
  rfl

/-- Settles O3: it emits the record of `regImmRecord`. -/
theorem movRegImmEmits : Obligations.MovRegImmEmits := fun _ _ _ _ hr => (exec_of_running hr rfl).trans rfl

/-- Settles O4: each emits its 3-byte record. -/
theorem movAccumulatorEmits : Obligations.MovAccumulatorEmits :=
  fun _ _ _ hr => ⟨(exec_of_running hr rfl).trans rfl, (exec_of_running hr rfl).trans rfl⟩

/-- Settles O5: the three share the body of family 5. -/
theorem arithRmRegEmits : Obligations.ArithRmRegEmits := by
  intro d w reg rm s hr
  dsimp only
  rw [exec_of_running hr (i := .addRmReg d w reg rm) rfl, exec_of_running hr (i := .subRmReg d w reg rm) rfl,
    exec_of_running hr (i := .cmpRmReg d w reg rm) rfl, rmRegRecord_eq, rmRegRecord_eq, rmRegRecord_eq]
  exact ⟨rfl, rfl, rfl⟩

/-- Settles O6: the three share the body of family 6. -/
theorem arithRmImmEmits : Obligations.ArithRmImmEmits := by
  intro sgn w rm imm s hr
  dsimp only
  rw [exec_of_running hr (i := .addRmImm sgn w rm imm) rfl, exec_of_running hr (i := .subRmImm sgn w rm imm) rfl,
    exec_of_running hr (i := .cmpRmImm sgn w rm imm) rfl, rmImmRecord_eq, rmImmRecord_eq, rmImmRecord_eq, ← sxBySw_eq]
  exact ⟨rfl, rfl, rfl⟩

/-- Settles O7: the three share the body of family 7, `regImmRecord` on the accumulator. -/
theorem arithAccImmEmits : Obligations.ArithAccImmEmits :=
  fun _ _ _ hr => ⟨(exec_of_running hr rfl).trans rfl, (exec_of_running hr rfl).trans rfl, (exec_of_running hr rfl).trans rfl⟩

/-- A jump emits its own mnemonic with the displacement byte read as a two's-complement integer. -/
theorem exec_jump {s : State} (hr : Running s) {i : Instr} {mn : Mnemonic} {rel : Byte}
    (h : exec i s = emit (jumpRecord mn rel) s) :
    exec i s = .next
      { s with
        out := s.out ++ [{ mn := mn, ops := [.rel rel.toInt], fam := .fam8, len := 2 }]
        pos := s.pos + 2 } := by
  rw [exec_of_running hr h, jumpRecord_eq]
  rfl

/-- Settles O8: by `exec_jump`, for each of the 15. -/
theorem jumpsEmit : Obligations.JumpsEmit := by
  intro rel s hr
  exact ⟨exec_jump hr rfl, exec_jump hr rfl, exec_jump hr rfl, exec_jump hr rfl, exec_jump hr rfl, exec_jump hr rfl,
    exec_jump hr rfl, exec_jump hr rfl, exec_jump hr rfl, exec_jump hr rfl, exec_jump hr rfl, exec_jump hr rfl,
    exec_jump hr rfl, exec_jump hr rfl, exec_jump hr rfl⟩

/-! The frame, and encodings with one meaning -/

/-- All an instruction can do, where it answers a next state: it was enabled and emits its record. -/
theorem exec_next {i : Instr} {s t : State} (h : exec i s = .next t) :
    Running s ∧ ∃ r, recordOf i = some r ∧ t = emitted r s := by
  obtain ⟨r, hr, hexec⟩ := exec_recordOf i
  obtain ⟨hrun, ht⟩ := emit_next ((hexec s).symm.trans h)
  exact ⟨hrun, r, hr, ht⟩

/-- Settles O9: every meaning is an emit, which writes `out` and `pos` alone. -/
theorem execFrame : Obligations.ExecFrame := by
  intro i s t h
  obtain ⟨-, r, -, rfl⟩ := exec_next h
  exact ⟨rfl, rfl, rfl, rfl, rfl, fun _ => rfl, r, rfl, rfl⟩

/-- Settles O51: the `reg` field of family 2 does not enter the record, `sx` is clear in a narrow form of either `s`, and with two
registers the two directions list the same operands (30_encoding R68). -/
theorem redundantEncodings : Obligations.RedundantEncodings :=
  ⟨fun _ _ _ _ _ _ => rfl, fun _ _ _ => ⟨rfl, rfl, rfl⟩, fun _ _ _ _ => ⟨rfl, rfl, rfl, rfl⟩⟩

end Sys2Proof.Machine
end

section
/-! The step (10_state R21, 60_exceptions): the bytes it reads, the fault it raises or the record it emits, and its frame. -/

namespace Sys2Proof.Machine

open Sys2Proof.Safety

/-! The bytes of the source from an offset on -/

/-- The bytes of the source from offset `p` to its end. -/
def sourceFrom (s : State) (p : Nat) : List Byte := (List.range (s.len - p)).map fun k => byteAt s.src (p + k)

@[simp] theorem sourceFrom_length (s : State) (p : Nat) : (sourceFrom s p).length = s.len - p := by simp [sourceFrom]

theorem sourceFrom_of_le {s : State} {p : Nat} (h : s.len ≤ p) : sourceFrom s p = [] := by
  simp [sourceFrom, Nat.sub_eq_zero_of_le h]

theorem sourceFrom_of_lt {s : State} {p : Nat} (h : p < s.len) : sourceFrom s p = byteAt s.src p :: sourceFrom s (p + 1) := by
  obtain ⟨n, hn⟩ : ∃ n, s.len - p = n + 1 := ⟨s.len - p - 1, by omega⟩
  simp [sourceFrom, hn, show s.len - (p + 1) = n by omega, List.range_succ_eq_map, Nat.add_comm, Nat.add_left_comm]

theorem sourceFrom_head? (s : State) (p : Nat) :
    (sourceFrom s p).head? = if p < s.len then some (byteAt s.src p) else none := by
  split
  · next h => rw [sourceFrom_of_lt h, List.head?_cons]
  · next h => rw [sourceFrom_of_le (by omega), List.head?_nil]

/-- A step reads the first six bytes of the source from the cursor on (10_state R20). -/
theorem window_eq_take (s : State) (p : Nat) : window s p = (sourceFrom s p).take Config.maxLength := by
  rw [window_eq, sourceFrom, ← List.map_take, List.take_range]

/-- Inside the source the window is the opcode byte and the first five bytes after it. -/
theorem window_of_lt {s : State} {p : Nat} (h : p < s.len) :
    window s p = byteAt s.src p :: (sourceFrom s (p + 1)).take 5 := by
  rw [window_eq_take, sourceFrom_of_lt h]
  rfl

/-- The addressing byte of the instruction at the cursor, where its family has one and it exists (60_exceptions R112). -/
def addressingByteAt (s : State) : Option Byte :=
  if addressed (byteAt s.src s.pos) && decide (s.pos + 1 < s.len) then some (byteAt s.src (s.pos + 1)) else none

/-! The decode of the window by the table of causes -/

/-- The checks ask for no more than six bytes, so the window has as many as they need. -/
theorem verdict_min (op m : Byte) (n : Nat) : verdict op m (min 6 n) = verdict op m n := by
  have htwo : min 6 n < 2 ↔ n < 2 := by omega
  have hlength : min 6 n < lengthFor op m ↔ n < lengthFor op m := by
    have := (lengthFor_bounds op m).2
    omega
  simp only [verdict, htwo, hlength]

/-- The fault the table of causes gives for the bytes from the cursor on. -/
def verdictAt (s : State) : Option DecodeFault :=
  verdict (byteAt s.src s.pos) (byteAt s.src (s.pos + 1)) (s.len - s.pos)

/-- The bytes `tail` after the opcode byte are enough of the source to decode the instruction at the cursor: the addressing byte is
there where it exists, and five bytes where five exist. -/
def EnoughAfterOpcode (s : State) (tail : List Byte) : Prop :=
  tail.head? = (sourceFrom s (s.pos + 1)).head? ∧ min 6 (tail.length + 1) = min 6 (s.len - s.pos)

theorem enoughAfterOpcode_window {s : State} (hlt : s.pos < s.len) :
    EnoughAfterOpcode s ((sourceFrom s (s.pos + 1)).take 5) := by
  refine ⟨?_, ?_⟩
  · rw [List.head?_take, if_neg (show ¬ 5 = 0 by decide)]
  · rw [List.length_take, sourceFrom_length]
    omega

theorem enoughAfterOpcode_sourceFrom {s : State} (hlt : s.pos < s.len) : EnoughAfterOpcode s (sourceFrom s (s.pos + 1)) := by
  refine ⟨rfl, ?_⟩
  rw [sourceFrom_length]
  omega

section
variable {s : State} {tail : List Byte} (htail : EnoughAfterOpcode s tail)
include htail

theorem verdict_of_enough : verdict (byteAt s.src s.pos) (byteAt s.src (s.pos + 1)) (tail.length + 1) = verdictAt s := by
  rw [← verdict_min, htail.2, verdict_min, verdictAt]

theorem eq_of_mem_head?_of_enough {b : Byte} (h : b ∈ tail.head?) : b = byteAt s.src (s.pos + 1) := by
  rw [htail.1, sourceFrom_head?] at h
  split at h <;> cases h
  rfl

theorem decode_of_verdictAt_some {f : DecodeFault} (h : verdictAt s = some f) :
    decode (byteAt s.src s.pos :: tail) = .error { fault := f, ext := addressingByteAt s } := by
  rw [decode_of_verdict_some (fun _ => eq_of_mem_head?_of_enough htail) ((verdict_of_enough htail).trans h), htail.1,
    sourceFrom_head?, addressingByteAt]
  cases addressed (byteAt s.src s.pos) <;> simp

theorem decode_of_verdictAt_none (h : verdictAt s = none) : ∃ i rest, decode (byteAt s.src s.pos :: tail) = .ok i rest :=
  decode_of_verdict_none (fun _ => eq_of_mem_head?_of_enough htail) ((verdict_of_enough htail).trans h)

end

section
variable {s : State} (hlt : s.pos < s.len)
include hlt

theorem decode_window_of_verdict_some {f : DecodeFault} (h : verdictAt s = some f) :
    decode (window s s.pos) = .error { fault := f, ext := addressingByteAt s } := by
  rw [window_of_lt hlt, decode_of_verdictAt_some (enoughAfterOpcode_window hlt) h]

theorem decode_window_of_verdict_none (h : verdictAt s = none) : ∃ i rest, decode (window s s.pos) = .ok i rest := by
  rw [window_of_lt hlt]
  exact decode_of_verdictAt_none (enoughAfterOpcode_window hlt) h

/-- A decode of the window that fails gives the fault of the table, with the addressing byte of the instruction at the cursor. -/
theorem decode_window_error {e : DecodeError} (h : decode (window s s.pos) = .error e) :
    verdictAt s = some e.fault ∧ e.ext = addressingByteAt s := by
  cases hv : verdictAt s with
  | none =>
    obtain ⟨i, rest, hi⟩ := decode_window_of_verdict_none hlt hv
    rw [hi] at h
    cases h
  | some f =>
    rw [decode_window_of_verdict_some hlt hv] at h
    cases h
    exact ⟨rfl, rfl⟩

end

/-- What the window decodes to has a record of the length of the table, and that many bytes exist. -/
theorem recordOf_of_decode_window {s : State} {p : Nat} {i : Instr} {rest : List Byte} (h : decode (window s p) = .ok i rest) :
    ∃ r, recordOf i = some r ∧ r.len = lengthFor (byteAt s.src p) (byteAt s.src (p + 1)) ∧ p + r.len ≤ s.len := by
  obtain ⟨op, m, tail, hwindow, hencode, htail⟩ := consumed_of_decode h
  obtain ⟨r, hr, hlen⟩ := recordOf_len i
  have hsize := window_length s p
  rw [hwindow] at hsize
  simp only [List.length_cons, List.length_append] at hsize
  have hop := window_getElem? s p 0 (by omega)
  have hm := window_getElem? s p 1 (by omega)
  rw [hwindow] at hop hm
  obtain rfl : op = byteAt s.src p := Option.some.inj hop
  obtain rfl : m = byteAt s.src (p + 1) := Option.some.inj hm
  exact ⟨r, hr, hlen.trans hencode, by omega⟩

/-! The step -/

/-- All a step can do, with the record it emits: the one the source decodes to at the cursor, of 2 to 6 bytes that exist. -/
theorem step_outcomes {s t : State} (h : step s = .next t) :
    Running s ∧
      ((s.pos = s.len ∧ t = cleanEnd s) ∨
       (∃ i rest r, decode (window s s.pos) = .ok i rest ∧ recordOf i = some r ∧ 2 ≤ r.len ∧ r.len ≤ 6 ∧
         s.pos + r.len ≤ s.len ∧ t = emitted r s) ∨
       (s.pos < s.len ∧ ∃ e, e.ext = addressingByteAt s ∧ t = raiseFault e s)) := by
  obtain ⟨hr, hend | ⟨hlt, i, rest, hd, hexec⟩ | ⟨hlt, e, hd, rfl⟩⟩ := step_cases h
  · exact ⟨hr, .inl hend⟩
  · obtain ⟨-, r, hrecord, ht⟩ := exec_next hexec
    obtain ⟨r', hrecord', hlen, hfits⟩ := recordOf_of_decode_window hd
    obtain rfl : r = r' := Option.some.inj (hrecord.symm.trans hrecord')
    obtain ⟨hlow, hhigh⟩ := lengthFor_bounds (byteAt s.src s.pos) (byteAt s.src (s.pos + 1))
    exact ⟨hr, .inr (.inl ⟨i, rest, r, hd, hrecord, by omega, by omega, hfits, ht⟩)⟩
  · exact ⟨hr, .inr (.inr ⟨hlt, e, (decode_window_error hlt hd).2, rfl⟩)⟩

/-- Settles O22: what decodes is well-formed, and the step runs it. -/
theorem stepRunsDecoded : Obligations.StepRunsDecoded :=
  fun _ _ _ hr hlt hd => ⟨(encode_of_decode hd).1, step_of_decode_ok hr hlt hd⟩

/-- Settles O25: the decode of the window fails with the fault of the table, and the step raises it. -/
theorem faultStep : Obligations.FaultStep := by
  intro s f hr hlt hverdict
  rw [step_of_decode_error hr hlt (decode_window_of_verdict_some hlt hverdict), raiseFault, faultRecordOf, addressingByteAt]
  cases f <;> cases addressed (byteAt s.src s.pos) && decide (s.pos + 1 < s.len) <;> rfl

/-- Settles O26: the window decodes, and the step emits that instruction's record, of the length of the table. -/
theorem noFaultStep : Obligations.NoFaultStep := by
  intro s hr hlt hverdict
  obtain ⟨i, rest, hd⟩ := decode_window_of_verdict_none hlt hverdict
  obtain ⟨r, hrecord, hexec⟩ := exec_recordOf i
  obtain ⟨r', hrecord', hlen, hfits⟩ := recordOf_of_decode_window hd
  obtain rfl : r = r' := Option.some.inj (hrecord.symm.trans hrecord')
  exact ⟨r, hlen, hfits, (step_of_decode_ok hr hlt hd).trans (exec_of_running hr (hexec s))⟩

/-- Settles O29: by the three outcomes of a step. -/
theorem stepFrame : Obligations.StepFrame := by
  intro s t h
  obtain ⟨⟨-, hrun⟩, ⟨-, rfl⟩ | ⟨i, rest, r, -, -, hlow, hhigh, hfits, rfl⟩ | ⟨-, e, -, rfl⟩⟩ := step_outcomes h
  · exact ⟨rfl, rfl, rfl, fun _ => rfl, .inl ⟨rfl, rfl, by simp⟩, fun _ => rfl⟩
  · exact ⟨rfl, rfl, rfl, fun _ => rfl, .inr ⟨r, rfl, rfl, hlow, hhigh, hfits, hrun⟩, fun _ => rfl⟩
  · exact ⟨rfl, rfl, rfl, fun _ => rfl, .inl ⟨rfl, rfl, by simp⟩, fun hne => absurd (raiseFault_status e s) hne⟩

theorem causeOf_ne_sourceUnavailable (f : DecodeFault) : causeOf f ≠ .sourceUnavailable := by cases f <;> decide

/-- Settles O31: only a raise writes the cause, and it writes that of a decode's fault. -/
theorem sourceUnavailableNeverRaised : Obligations.SourceUnavailableNeverRaised := by
  rintro s t (h | ⟨i, h⟩) hcause
  · obtain ⟨-, ⟨-, rfl⟩ | ⟨-, -, r, -, -, -, -, -, rfl⟩ | ⟨-, e, -, rfl⟩⟩ := step_outcomes h
    · exact hcause
    · exact hcause
    · exact causeOf_ne_sourceUnavailable e.fault
  · obtain ⟨-, r, -, rfl⟩ := exec_next h
    exact hcause

/-! Where no step is taken -/

/-- The guard's answer where a step is not enabled is the step's, and every instruction's. -/
theorem stuck_of_guard {s : State} {f : Fault} (h : ∀ o, whenRunning s o = .fault f) :
    step s = .fault f ∧ ∀ i, exec i s = .fault f := by
  refine ⟨h _, fun i => ?_⟩
  obtain ⟨r, hexec⟩ := exec_emit i
  exact (hexec s).trans (h _)

/-- Settles O27: the guard stops in FAULT, and of the host's actions only the release of reset writes `status` or `fault`. -/
theorem faultIsTerminal : Obligations.FaultIsTerminal := by
  refine ⟨fun s hheld hstatus => stuck_of_guard fun o => by simp [whenRunning, hheld, hstatus], fun a s t hstatus ha h => ?_⟩
  cases a with
  | assertReset => cases h; exact ⟨hstatus, rfl⟩
  | load bytes =>
    simp only [hostAct] at h
    split at h <;> cases h
    exact ⟨hstatus, rfl⟩
  | releaseReset => exact absurd rfl ha

/-- Settles O28: the guard stops in DONE, and before it looks at the status while reset is held. -/
theorem noStepWhenDoneOrHeld : Obligations.NoStepWhenDoneOrHeld :=
  ⟨fun s hheld hstatus => stuck_of_guard fun o => by simp [whenRunning, hheld, hstatus],
    fun s hheld => stuck_of_guard fun o => by simp [whenRunning, hheld]⟩

/-- Settles O32: the codes are read off, and no status has code 11. -/
theorem registerCodes : Obligations.RegisterCodes :=
  ⟨rfl, rfl, rfl, fun x => by cases x <;> decide, rfl, rfl, rfl, rfl⟩

end Sys2Proof.Machine
end

section
/-! The invariant and the listing: at reset, over every step, and to the end of a run (70_reset_and_hazards R129, R134). -/

namespace Sys2Proof.Machine

open Sys2Proof.Safety

/-! Legal records: one lemma per record shape -/

theorem between_iff (lo hi n : Nat) : between lo hi n = true ↔ lo ≤ n ∧ n ≤ hi := by simp [between]

/-- An immediate fits a destination when its tag is the destination's, and it carries `sx` only where allowed, on one byte. -/
theorem immFits_immOperand (dst : Operand) (sxAllowed : Bool) (imm : ImmField) (explicit sx : Bool) :
    immFits dst sxAllowed (immOperand imm explicit sx) =
      (explicit == !isReg dst && (!sx || (sxAllowed && immLength imm == 1))) := by
  cases imm <;> rfl

/-- The families with two register-or-memory operands: 1 with mov, 5 with add, sub and cmp. -/
theorem recordLegal_rmRegRecord {mn : Mnemonic} {fam : Family}
    (hfam : (fam = .fam1 ∧ mn = .mov) ∨ (fam = .fam5 ∧ isArith mn = true)) (d : Direction) (w : Width) (reg : Index)
    {rm : RmField} (h : rm.wellFormed = true) : recordLegal (rmRegRecord mn fam d w reg rm) = true := by
  have hlen : between 2 4 (2 + dispLength rm) = true := by
    have := dispLength_le rm
    exact (between_iff _ _ _).mpr (by omega)
  have hreg : isReg (.reg reg w) = true ∧ isRm (.reg reg w) = true ∧ operandLegal (.reg reg w) = true := ⟨rfl, rfl, rfl⟩
  rcases hfam with ⟨rfl, rfl⟩ | ⟨rfl, hmn⟩ <;> cases d <;>
    simp [recordLegal, rmRegRecord, shapeLegal, operandLegal_rmOperand w h, isRm_rmOperand, *]

/-- The families with a register-or-memory destination and an immediate: 2 with mov and no `sx`, 6 with add, sub and cmp and
`sx` only on one byte. -/
theorem recordLegal_rmImmRecord {mn : Mnemonic} {fam : Family} {sx : Bool} {imm : ImmField}
    (hfam : (fam = .fam2 ∧ mn = .mov ∧ sx = false) ∨ (fam = .fam6 ∧ isArith mn = true ∧ (sx = true → immLength imm = 1)))
    (w : Width) {rm : RmField} (h : rm.wellFormed = true) : recordLegal (rmImmRecord mn fam w rm imm sx) = true := by
  have hlen : between 3 6 (2 + dispLength rm + immLength imm) = true := by
    have := dispLength_le rm
    have := immLength_cases imm
    exact (between_iff _ _ _).mpr (by omega)
  rcases hfam with ⟨rfl, rfl, rfl⟩ | ⟨rfl, hmn, hsx⟩
  · simp [recordLegal, rmImmRecord, shapeLegal, operandLegal_rmOperand w h, operandLegal_immOperand, isRm_rmOperand,
      isReg_rmOperand, immFits_immOperand, hlen]
  · cases sx <;>
      simp_all [recordLegal, rmImmRecord, shapeLegal, operandLegal_rmOperand w h, operandLegal_immOperand, isRm_rmOperand,
        isReg_rmOperand, immFits_immOperand]

/-- The families with a register destination and an immediate: 3 with mov, 7 with add, sub and cmp and the accumulator. -/
theorem recordLegal_regImmRecord {mn : Mnemonic} {fam : Family} {idx : Index}
    (hfam : (fam = .fam3 ∧ mn = .mov) ∨ (fam = .fam7 ∧ isArith mn = true ∧ idx = 0)) (w : Width) (imm : ImmField) :
    recordLegal (regImmRecord mn fam (.reg idx w) imm) = true := by
  have hlen : between 2 3 (1 + immLength imm) = true := by
    have := immLength_cases imm
    exact (between_iff _ _ _).mpr (by omega)
  have hreg : ∀ k : Index, isReg (.reg k w) = true ∧ operandLegal (.reg k w) = true := fun _ => ⟨rfl, rfl⟩
  rcases hfam with ⟨rfl, rfl⟩ | ⟨rfl, hmn, rfl⟩ <;>
    simp [recordLegal, regImmRecord, shapeLegal, operandLegal_immOperand, immFits_immOperand, *]

theorem recordLegal_jumpRecord {mn : Mnemonic} (hmn : isJump mn = true) (rel : Byte) :
    recordLegal (jumpRecord mn rel) = true := by
  obtain ⟨hlow, hhigh⟩ := signed8_bounds rel
  simp [recordLegal, jumpRecord, shapeLegal, operandLegal, hmn, hlow, hhigh]

/-- `sx` is set only where one immediate byte is read (30_encoding R61, R64). -/
theorem immLength_of_sxBySw {sgn : Bool} {w : Width} {imm : ImmField} (h : imm.matches (twoBySw sgn w) = true)
    (hsx : sxBySw sgn w = true) : immLength imm = 1 := by
  obtain ⟨rfl, -⟩ := Bool.and_eq_true_iff.mp hsx
  cases imm with
  | one b => rfl
  | two v => cases h

theorem recordLegal_arithRmImm {mn : Mnemonic} (hmn : isArith mn = true) {sgn : Bool} {w : Width} {rm : RmField} {imm : ImmField}
    (h : (rm.wellFormed && imm.matches (twoBySw sgn w)) = true) :
    recordLegal (rmImmRecord mn .fam6 w rm imm (sxBySw sgn w)) = true := by
  obtain ⟨hrm, himm⟩ := Bool.and_eq_true_iff.mp h
  exact recordLegal_rmImmRecord (.inr ⟨rfl, hmn, immLength_of_sxBySw himm⟩) w hrm

/-- The record of a well-formed instruction is one DEC can emit. -/
theorem recordLegal_of_wellFormed {i : Instr} (hwf : i.wellFormed = true) {r : Record} (h : recordOf i = some r) :
    recordLegal r = true := by
  cases i <;> obtain rfl := Option.some.inj h
  case movRmReg d w reg rm => exact recordLegal_rmRegRecord (.inl ⟨rfl, rfl⟩) d w reg hwf
  case movRmImm w unused rm imm =>
    exact recordLegal_rmImmRecord (.inl ⟨rfl, rfl, rfl⟩) w (Bool.and_eq_true_iff.mp hwf).1
  case movRegImm w reg imm => exact recordLegal_regImmRecord (.inl ⟨rfl, rfl⟩) w imm
  case movAccMem w addr => rfl
  case movMemAcc w addr => rfl
  case addRmReg d w reg rm | subRmReg d w reg rm | cmpRmReg d w reg rm =>
    exact recordLegal_rmRegRecord (.inr ⟨rfl, rfl⟩) d w reg hwf
  case addRmImm sgn w rm imm | subRmImm sgn w rm imm | cmpRmImm sgn w rm imm => exact recordLegal_arithRmImm rfl hwf
  case addAccImm w imm | subAccImm w imm | cmpAccImm w imm =>
    exact recordLegal_regImmRecord (.inr ⟨rfl, rfl, rfl⟩) w imm
  case je | jl | jle | jb | jbe | jp | jo | js | jne | jnl | jnle | jnb | jnbe | jnp | jno => exact recordLegal_jumpRecord rfl _

/-! The invariant -/

theorem totalLength_append (out : List Record) (r : Record) : totalLength (out ++ [r]) = totalLength out + r.len := by
  simp [totalLength]

/-- Reset values beside a canonical source meet the invariant. -/
theorem inv_resetKeepingSource {s : State} (h : sourceWf s = true) : Inv (resetKeepingSource s) where
  source := h
  cursor := Nat.zero_le _
  total := rfl
  legal := rfl
  clear := fun _ => rfl
  done := fun hdone => by cases hdone
  failed := fun hfault => by cases hfault

theorem faithful_resetKeepingSource (s : State) : Faithful (resetKeepingSource s) := rfl

/-- Settles O33: the reset state keeps the empty source. -/
theorem invAtReset : Obligations.InvAtReset :=
  ⟨inv_resetKeepingSource (s := State.reset) rfl, faithful_resetKeepingSource State.reset⟩

theorem inv_cleanEnd {s : State} (h : Inv s) (hr : Running s) (hend : s.pos = s.len) : Inv (cleanEnd s) where
  source := h.source
  cursor := h.cursor
  total := h.total
  legal := h.legal
  clear := fun _ => h.clear (by simp [hr.2])
  done := fun _ => hend
  failed := fun hfault => by cases hfault

theorem inv_emitted {s : State} (h : Inv s) (hr : Running s) {r : Record} (hlegal : recordLegal r = true)
    (hfits : s.pos + r.len ≤ s.len) : Inv (emitted r s) where
  source := h.source
  cursor := hfits
  total := by rw [emitted_out, totalLength_append, h.total, emitted_pos]
  legal := by simp [h.legal, hlegal]
  clear := h.clear
  done := fun hdone => absurd (hr.2.symm.trans hdone) (by decide)
  failed := fun hfault => absurd (hr.2.symm.trans hfault) (by decide)

/-- A raise inside the source records the instruction at the cursor. -/
theorem faultRecorded_raiseFault {s : State} {e : DecodeError} (hlt : s.pos < s.len) (hext : e.ext = addressingByteAt s) :
    FaultRecorded (raiseFault e s) where
  cause := by
    simp only [raiseFault_fault, faultRecordOf]
    cases e.fault
    · exact .inl rfl
    · exact .inr rfl
  offset := rfl
  inside := hlt
  opcode := rfl
  extSet := by
    simp only [raiseFault_fault, faultRecordOf, hext, addressingByteAt]
    split
    · next h => simp_all
    · simp
  extClear := by
    simp only [raiseFault_fault, faultRecordOf, hext, addressingByteAt]
    split <;> simp

theorem inv_raiseFault {s : State} (h : Inv s) {e : DecodeError} (hlt : s.pos < s.len) (hext : e.ext = addressingByteAt s) :
    Inv (raiseFault e s) where
  source := h.source
  cursor := h.cursor
  total := h.total
  legal := h.legal
  clear := fun hne => absurd rfl hne
  done := fun hdone => by cases hdone
  failed := fun _ => faultRecorded_raiseFault hlt hext

/-- Settles O34: each of the three outcomes of a step keeps the invariant. -/
theorem invKept : Obligations.InvKept := by
  intro s t hinv hstep
  obtain ⟨hr, ⟨hend, rfl⟩ | ⟨i, rest, r, hd, hrecord, -, -, hfits, rfl⟩ | ⟨hlt, e, hext, rfl⟩⟩ := step_outcomes hstep
  · exact inv_cleanEnd hinv hr hend
  · exact inv_emitted hinv hr (recordLegal_of_wellFormed (encode_of_decode hd).1 hrecord) hfits
  · exact inv_raiseFault hinv hlt hext

/-! The listing -/

theorem recordAt_of_decode {s : State} {p : Nat} {i : Instr} {rest : List Byte} (h : decode (window s p) = .ok i rest) :
    recordAt s p = recordOf i := by
  rw [recordAt, h]

/-- The listing depends on the state by its source alone. -/
theorem listed_congr {s t : State} (hsrc : t.src = s.src) (hlen : t.len = s.len) {p q : Nat} {out : List Record}
    (h : Listed s p out q) : Listed t p out q := by
  induction out generalizing p with
  | nil => exact h
  | cons r out ih =>
    obtain ⟨hr, hrest⟩ := h
    exact ⟨by rw [recordAt, window_congr hsrc hlen]; exact hr, ih hrest⟩

/-- A listing goes on with the record the source decodes to where it ends. -/
theorem listed_append {s : State} {p q : Nat} {out : List Record} {r : Record} (h : Listed s p out q)
    (hr : recordAt s q = some r) : Listed s p (out ++ [r]) (q + r.len) := by
  induction out generalizing p with
  | nil => cases h; exact ⟨hr, rfl⟩
  | cons r' out ih =>
    obtain ⟨hr', hrest⟩ := h
    exact ⟨hr', ih hrest⟩

/-- Settles O35: a step that emits goes on with the record at the cursor, the other outcomes leave `out` and `pos`. -/
theorem listingKept : Obligations.ListingKept := by
  intro s t h hstep
  obtain ⟨-, ⟨-, rfl⟩ | ⟨i, rest, r, hd, hrecord, -, -, -, rfl⟩ | ⟨-, e, -, rfl⟩⟩ := step_outcomes hstep
  · exact listed_congr (cleanEnd_src s) (cleanEnd_len s) h
  · exact listed_congr (emitted_src r s) (emitted_len r s) (listed_append h ((recordAt_of_decode hd).trans hrecord))
  · exact listed_congr (raiseFault_src e s) (raiseFault_len e s) h

/-! The end of a run -/

/-- A running state within the source has a next state. -/
theorem step_progress {s : State} (hr : Running s) (h : s.pos ≤ s.len) : ∃ t, step s = .next t := by
  rcases Nat.eq_or_lt_of_le h with hend | hlt
  · exact ⟨_, step_at_end hr hend⟩
  · cases hd : decode (window s s.pos) with
    | ok i rest =>
      obtain ⟨r, hexec⟩ := exec_emit i
      exact ⟨_, (step_of_decode_ok hr hlt hd).trans (exec_of_running hr (hexec s))⟩
    | error e => exact ⟨_, step_of_decode_error hr hlt hd⟩

/-- `t` is an end of a run over the source of `s`: the listing is complete to the cursor, and DEC is at DONE at the end of the
source or at FAULT on the opcode byte of the instruction that failed. -/
def EndOf (s t : State) : Prop :=
  t.src = s.src ∧ t.len = s.len ∧ Faithful t ∧ totalLength t.out = t.pos ∧
    ((t.status = .done ∧ t.pos = t.len) ∨ (t.status = .fault ∧ t.pos = t.fault.offset ∧ t.pos < t.len))

/-- A step that leaves RUN ends the run. -/
theorem endOf_of_step {s t : State} (hinv : Inv s) (hlist : Faithful s) (hstep : step s = .next t) (hne : t.status ≠ .run) :
    EndOf s t := by
  have ht : Inv t := invKept s t hinv hstep
  obtain ⟨hsrc, hlen, -⟩ := stepFrame s t hstep
  refine ⟨hsrc, hlen, listingKept s t hlist hstep, ht.total, ?_⟩
  cases hstatus : t.status with
  | run => exact absurd hstatus hne
  | done => exact .inl ⟨rfl, ht.done hstatus⟩
  | fault => exact .inr ⟨rfl, (ht.failed hstatus).offset.symm, (ht.failed hstatus).inside⟩

/-- Every record takes at least two bytes, so a run has ended after one step more than half the bytes left. -/
theorem run_ends (n : Nat) {s : State} (hn : s.len - s.pos ≤ n) (hr : Running s) (hinv : Inv s) (hlist : Faithful s) :
    ∃ k t, k ≤ (s.len - s.pos) / 2 + 1 ∧ core.run k s = .next t ∧ EndOf s t := by
  induction n using Nat.strong_induction_on generalizing s with
  | _ n ih =>
    obtain ⟨t, hstep⟩ := step_progress hr hinv.cursor
    by_cases hrun : t.status = .run
    · obtain ⟨hsrc, hlen, hheld, -, hmoved, -⟩ := stepFrame s t hstep
      obtain ⟨-, -, hne⟩ | ⟨r, -, hpos, hlow, -, hfits, -⟩ := hmoved
      · exact absurd hrun hne
      obtain ⟨k, u, hk, hrunk, hsrc', hlen', hend⟩ :=
        ih (t.len - t.pos) (by omega) le_rfl ⟨hheld.trans hr.1, hrun⟩ (invKept s t hinv hstep) (listingKept s t hlist hstep)
      exact ⟨k + 1, u, by omega, (run_of_step core hstep).trans hrunk, hsrc'.trans hsrc, hlen'.trans hlen, hend⟩
    · exact ⟨1, t, by omega, run_of_step core hstep, endOf_of_step hinv hlist hstep hrun⟩

/-- Settles O36: `EndOf` is what the statement says of the last state, and `run_ends` is the bound. -/
theorem runEnds : Obligations.RunEnds := fun s hr hinv hlist => run_ends (s.len - s.pos) le_rfl hr hinv hlist

/-! The cursor width -/

/-- With the invariant the cursor and the offset of the fault record are at most `LEN`. -/
theorem cursor_le_len {s : State} (h : Inv s) : s.pos ≤ s.len ∧ s.fault.offset ≤ s.len := by
  refine ⟨h.cursor, ?_⟩
  by_cases hfault : s.status = .fault
  · rw [(h.failed hfault).offset]
    exact h.cursor
  · rw [h.clear hfault]
    exact Nat.zero_le _

/-- Settles O37: both states meet the invariant and have the same `LEN`. -/
theorem cursorFitsWidth : Obligations.CursorFitsWidth := by
  intro s t hinv hwidth hstep
  obtain ⟨-, hlen, -⟩ := stepFrame s t hstep
  obtain ⟨hpos, hoffset⟩ := cursor_le_len hinv
  obtain ⟨hpos', hoffset'⟩ := cursor_le_len (invKept s t hinv hstep)
  rw [hlen] at hpos' hoffset'
  exact ⟨hpos.trans_lt hwidth, hoffset.trans_lt hwidth, hpos'.trans_lt hwidth, hoffset'.trans_lt hwidth⟩

end Sys2Proof.Machine
end

section
/-! The step against the spec's decode pseudocode (00_scope R11, 30_encoding R46, R49, R58, R65): the decoder on a list of bytes and
the pseudocode on a cursor read the same source. -/

namespace Sys2Proof.Machine

open Sys2Proof.Safety

/-! The window decodes as the whole rest of the source does -/

theorem decode_sourceFrom_of_ok {s : State} {p : Nat} {i : Instr} {rest : List Byte} (h : decode (window s p) = .ok i rest) :
    ∃ rest', decode (sourceFrom s p) = .ok i rest' := by
  obtain ⟨hwf, hwindow⟩ := encode_of_decode h
  rw [window_eq_take] at hwindow
  rw [← List.take_append_drop Config.maxLength (sourceFrom s p), hwindow, List.append_assoc]
  exact ⟨_, decodeOfEncode i _ hwf⟩

theorem decode_sourceFrom_of_error {s : State} (hlt : s.pos < s.len) {e : DecodeError}
    (h : decode (window s s.pos) = .error e) : decode (sourceFrom s s.pos) = .error e := by
  obtain ⟨hverdict, hext⟩ := decode_window_error hlt h
  rw [sourceFrom_of_lt hlt, decode_of_verdictAt_some (enoughAfterOpcode_sourceFrom hlt) hverdict, ← hext]

/-! Reading at a cursor -/

theorem except_ok_bind {ε α β : Type} (a : α) (f : α → Except ε β) : (Except.ok a >>= f) = f a := rfl

theorem refTake_ok (s : State) (ext : Option Byte) {n p : Nat} (h : p + n ≤ s.len) :
    refTake s ext n p = .ok ((List.range n).map (fun k => byteAt s.src (p + k)), p + n) :=
  if_neg (by omega)

theorem refTake_short (s : State) (ext : Option Byte) {n p : Nat} (h : s.len < p + n) :
    refTake s ext n p = .error { fault := .shortRead, ext := ext } :=
  if_pos h

@[simp] theorem refWord_encodeWord (v : Word) : refWord (encodeWord v) = v := word16_lowByte_highByte v

/-- The pseudocode's read `y` at cursor `p` and the decoder's read `x` of the bytes from there do the same: both fail alike, or `x`
answers a value, `y` what `value` makes of it, and the cursor stands where the bytes left begin. -/
def ReadAlike {α β : Type} (s : State) (p : Nat) (value : α → β) (size : α → Nat) (y : Except DecodeError (β × Nat))
    (x : Decoded α) : Prop :=
  (∃ a, y = .ok (value a, p + size a) ∧ x = .ok a (sourceFrom s (p + size a))) ∨ ∃ e, y = .error e ∧ x = .error e

theorem readAlike_take1 (s : State) (ext : Option Byte) (p : Nat) :
    ReadAlike s p (fun b => [b]) (fun _ => 1) (refTake s ext 1 p) (take1 ext (sourceFrom s p)) := by
  rcases Nat.lt_or_ge p s.len with h | h
  · exact .inl ⟨byteAt s.src p, refTake_ok s ext h, by rw [sourceFrom_of_lt h, take1_cons]⟩
  · exact .inr ⟨_, refTake_short s ext (by omega), by rw [sourceFrom_of_le h, take1_nil]⟩

theorem readAlike_take2 (s : State) (ext : Option Byte) (p : Nat) :
    ReadAlike s p encodeWord (fun _ => 2) (refTake s ext 2 p) (take2 ext (sourceFrom s p)) := by
  rcases Nat.lt_or_ge (p + 1) s.len with h | h
  · refine .inl ⟨word16 (byteAt s.src p) (byteAt s.src (p + 1)), ?_, ?_⟩
    · rw [refTake_ok s ext h, encodeWord_word16]
      rfl
    · exact (congrArg _ ((sourceFrom_of_lt (Nat.lt_of_succ_lt h)).trans (congrArg _ (sourceFrom_of_lt h)))).trans rfl
  · exact .inr ⟨_, refTake_short s ext (by omega), take2_short ext (by rw [sourceFrom_length]; omega)⟩

/-- `DecodeRM` (30_encoding R58), case by case. -/
theorem readAlike_decodeRm (s : State) (m : Byte) (w : Width) (p : Nat) :
    ReadAlike s p (fun f => rmOperand f w) dispLength (refDecodeRM s m w p) (decodeRm m (sourceFrom s p)) := by
  have hfields : m.extractLsb 7 6 = modOf m ∧ m.extractLsb 2 0 = rmOf m := ⟨rfl, rfl⟩
  rcases mod_cases (modOf m) with hmod | hmod | hmod | hmod
  · exact .inl ⟨.reg (rmOf m), if_pos hmod, decodeRm_register hmod _⟩
  · by_cases hrm : rmOf m = 0b110
    · rw [decodeRm_direct hmod hrm]
      rcases readAlike_take2 s (some m) p with ⟨v, hy, hx⟩ | ⟨e, hy, hx⟩
      · exact .inl ⟨.direct v, by simp [refDecodeRM, hfields, hmod, hrm, hy, rmOperand, dispLength], by rw [hx]; rfl⟩
      · exact .inr ⟨e, by simp [refDecodeRM, hfields, hmod, hrm, hy], by rw [hx]; rfl⟩
    · refine .inl ⟨.mem (rmOf m), ?_, decodeRm_base hmod hrm _⟩
      simp only [refDecodeRM, hfields, hmod, hrm, and_false]
      rfl
  · rw [decodeRm_disp8 hmod]
    rcases readAlike_take1 s (some m) p with ⟨b, hy, hx⟩ | ⟨e, hy, hx⟩
    · exact .inl ⟨.memDisp8 (rmOf m) b, by simp [refDecodeRM, hfields, hmod, hy, rmOperand, dispLength], by rw [hx]; rfl⟩
    · exact .inr ⟨e, by simp [refDecodeRM, hfields, hmod, hy], by rw [hx]; rfl⟩
  · rw [decodeRm_disp16 hmod]
    rcases readAlike_take2 s (some m) p with ⟨v, hy, hx⟩ | ⟨e, hy, hx⟩
    · exact .inl ⟨.memDisp16 (rmOf m) v, by simp [refDecodeRM, hfields, hmod, hy, rmOperand, dispLength], by rw [hx]; rfl⟩
    · exact .inr ⟨e, by simp [refDecodeRM, hfields, hmod, hy], by rw [hx]; rfl⟩

/-- `DecodeImm` (30_encoding R65), by the number of bytes. -/
theorem readAlike_decodeImm (s : State) (ext : Option Byte) (two explicit sx : Bool) (p : Nat) :
    ReadAlike s p (fun imm => immOperand imm explicit sx) immLength (refDecodeImm s ext two explicit sx p)
      (decodeImm two ext (sourceFrom s p)) := by
  cases two with
  | true =>
    rcases readAlike_take2 s ext p with ⟨v, hy, hx⟩ | ⟨e, hy, hx⟩
    · exact .inl ⟨.two v, by simp [refDecodeImm, hy, immOperand, immLength], by simp [decodeImm, hx, immLength]⟩
    · exact .inr ⟨e, by simp [refDecodeImm, hy], by simp [decodeImm, hx]⟩
  | false =>
    rcases readAlike_take1 s ext p with ⟨b, hy, hx⟩ | ⟨e, hy, hx⟩
    · exact .inl ⟨.one b, by simp [refDecodeImm, hy, immOperand, immLength], by simp [decodeImm, hx, immLength]⟩
    · exact .inr ⟨e, by simp [refDecodeImm, hy], by simp [decodeImm, hx]⟩

/-! The fields of the opcode and the addressing byte, as the pseudocode reads them -/

theorem refWidth_bit0 : ∀ op : Byte, refWidth (op.extractLsb 0 0) = widthAt op 0 := by decide

theorem refWidth_bit3 : ∀ op : Byte, refWidth (op.extractLsb 3 3) = widthAt op 3 := by decide

theorem direction_bit : ∀ op : Byte, op.extractLsb 1 1 = 1 ↔ directionOf op = .toReg := by decide

theorem toMemory_bit : ∀ op : Byte, op.extractLsb 1 1 = 0 ↔ toMemoryOf op = false := by decide

theorem twoBySw_bits : ∀ op : Byte, decide (op.extractLsb 1 0 = 0b01) = twoBySw (signOf op) (widthAt op 0) := by decide

theorem sxBySw_bits : ∀ op : Byte, decide (op.extractLsb 1 0 = 0b11) = sxBySw (signOf op) (widthAt op 0) := by decide

theorem twoByWidth_eq (w : Width) : decide (w = .wide) = twoByWidth w := by cases w <;> rfl

theorem regOf_bits (m : Byte) : m.extractLsb 5 3 = regOf m := rfl

/-- The tag of a decoded field is set exactly for `mod != 11` (30_encoding R63). -/
theorem explicitTag_of_decodeRm {m : Byte} {bytes rest : List Byte} {f : RmField} (h : decodeRm m bytes = .ok f rest) :
    decide (m.extractLsb 7 6 ≠ 0b11) = explicitTag f := by
  obtain ⟨-, -, hm⟩ := decodeRm_ok h
  rw [show m.extractLsb 7 6 = modOf m from rfl, ← hm]
  cases f <;> rw [addressingByte, (addressing_fields _ _ _).1] <;> rfl

/-! The bodies of the families -/

/-- The pseudocode's outcome `y` and the decoder's `x` are the same: both fail alike, or `x` is an instruction and `y` its
record. -/
def DecodeAlike (y : Except DecodeError Record) (x : Decoded Instr) : Prop :=
  (∃ i rest r, recordOf i = some r ∧ y = .ok r ∧ x = .ok i rest) ∨ ∃ e, y = .error e ∧ x = .error e

theorem decodeAlike_ok {i : Instr} {r : Record} (h : recordOf i = some r) (rest : List Byte) :
    DecodeAlike (.ok r) (.ok i rest) :=
  .inl ⟨i, rest, r, h, rfl, rfl⟩

theorem decodeAlike_error (e : DecodeError) : DecodeAlike (.error e) (.error e) := .inr ⟨e, rfl, rfl⟩

/-- Two reads that do the same, followed by what does the same on every value they answer. -/
theorem ReadAlike.bind {α β : Type} {s : State} {p : Nat} {value : α → β} {size : α → Nat} {y : Except DecodeError (β × Nat)}
    {x : Decoded α} (h : ReadAlike s p value size y x) {next : β × Nat → Except DecodeError Record}
    {next' : α → List Byte → Decoded Instr}
    (hnext : ∀ a, x = .ok a (sourceFrom s (p + size a)) →
      DecodeAlike (next (value a, p + size a)) (next' a (sourceFrom s (p + size a)))) :
    DecodeAlike (y >>= next) (x.andThen next') := by
  rcases h with ⟨a, rfl, hx⟩ | ⟨e, rfl, rfl⟩
  · rw [hx]
    exact hnext a hx
  · exact decodeAlike_error e

theorem decodeAlike_rmReg {mk : Direction → Width → Index → RmField → Instr} {mn : Mnemonic} {fam : Family}
    (hmk : ∀ d w reg rm, recordOf (mk d w reg rm) = some (rmRegRecord mn fam d w reg rm)) (s : State) (op : Byte) (pos : Nat) :
    DecodeAlike (refRmReg s mn fam op pos (pos + 1)) (decodeRmReg mk op (sourceFrom s (pos + 1))) := by
  simp only [refRmReg, refWidth_bit0]
  refine (readAlike_take1 s none (pos + 1)).bind fun m _ => ?_
  refine (readAlike_decodeRm s m (widthAt op 0) (pos + 1 + 1)).bind fun f _ => ?_
  refine decodeAlike_ok ((hmk _ _ _ _).trans ?_) _
  have hlen : pos + 1 + 1 + dispLength f - pos = 2 + dispLength f := by omega
  simp only [rmRegRecord_eq, direction_bit, hlen]
  rfl

/-- The pseudocode of families 2 and 6 after the addressing byte `m`: `DecodeRM`, then `DecodeImm` (40_mov R81, 41_arith). -/
def refRmImmAfter (s : State) (mn : Mnemonic) (fam : Family) (w : Width) (two sx : Bool) (m : Byte) (pos p : Nat) :
    Except DecodeError Record := do
  let (dst, p) ← refDecodeRM s m w p
  let (src, p) ← refDecodeImm s (some m) two (m.extractLsb 7 6 ≠ 0b11) sx p
  return { mn := mn, ops := [dst, src], fam := fam, len := p - pos }

theorem decodeAlike_rmImmAfter {mk : RmField → ImmField → Instr} {mn : Mnemonic} {fam : Family} {w : Width} {sx : Bool}
    (hmk : ∀ rm imm, recordOf (mk rm imm) = some (rmImmRecord mn fam w rm imm sx)) (s : State) (two : Bool) (m : Byte)
    (pos : Nat) :
    DecodeAlike (refRmImmAfter s mn fam w two sx m pos (pos + 1 + 1))
      ((decodeRm m (sourceFrom s (pos + 1 + 1))).andThen fun rm afterRm =>
        (decodeImm two (some m) afterRm).andThen fun imm rest => .ok (mk rm imm) rest) := by
  refine (readAlike_decodeRm s m w (pos + 1 + 1)).bind fun f hf => ?_
  dsimp only
  rw [explicitTag_of_decodeRm hf]
  refine (readAlike_decodeImm s (some m) two (explicitTag f) sx _).bind fun imm _ => ?_
  have hlen : pos + 1 + 1 + dispLength f + immLength imm - pos = 2 + dispLength f + immLength imm := by omega
  exact decodeAlike_ok ((hmk f imm).trans (by rw [hlen]; rfl)) _

theorem decodeAlike_movRmImm (s : State) (op : Byte) (pos : Nat) :
    DecodeAlike (refMovRmImm s op pos (pos + 1)) (decodeMovRmImm op (sourceFrom s (pos + 1))) := by
  simp only [refMovRmImm, refWidth_bit0, twoByWidth_eq]
  exact (readAlike_take1 s none (pos + 1)).bind fun m _ => decodeAlike_rmImmAfter (fun _ _ => rfl) s _ m pos

theorem decodeAlike_movRegImm (s : State) (op : Byte) (pos : Nat) :
    DecodeAlike (refMovRegImm s op pos (pos + 1)) (decodeMovRegImm op (sourceFrom s (pos + 1))) := by
  simp only [refMovRegImm, refWidth_bit3, twoByWidth_eq]
  refine (readAlike_decodeImm s none _ false false (pos + 1)).bind fun imm _ => ?_
  have hlen : pos + 1 + immLength imm - pos = 1 + immLength imm := by omega
  exact decodeAlike_ok (by rw [hlen]; rfl) _

theorem decodeAlike_movAcc (s : State) (op : Byte) (p : Nat) :
    DecodeAlike (refMovAcc s op p) (decodeMovAcc op (sourceFrom s p)) := by
  simp only [refMovAcc, refWidth_bit0, toMemory_bit]
  refine (readAlike_take2 s none p).bind fun addr _ => ?_
  dsimp only
  rw [refWord_encodeWord]
  cases toMemoryOf op <;> exact decodeAlike_ok rfl _

/-- The mnemonic of the operation that families 5, 6 and 7 select (30_encoding R43). -/
def arithMnemonic : ArithOp → Mnemonic
  | .add => .add
  | .sub => .sub
  | .cmp => .cmp

theorem recordOf_rmRegForm (a : ArithOp) (d : Direction) (w : Width) (reg : Index) (rm : RmField) :
    recordOf (rmRegForm a d w reg rm) = some (rmRegRecord (arithMnemonic a) .fam5 d w reg rm) := by
  cases a <;> rfl

theorem recordOf_rmImmForm (a : ArithOp) (sgn : Bool) (w : Width) (rm : RmField) (imm : ImmField) :
    recordOf (rmImmForm a sgn w rm imm) = some (rmImmRecord (arithMnemonic a) .fam6 w rm imm (sxBySw sgn w)) := by
  cases a <;> rfl

theorem decodeAlike_rmImm (s : State) (op : Byte) (pos : Nat) :
    DecodeAlike (refRmImm s op pos (pos + 1)) (decodeArithRmImm op (sourceFrom s (pos + 1))) := by
  simp only [refRmImm, refWidth_bit0, twoBySw_bits, sxBySw_bits]
  refine (readAlike_take1 s none (pos + 1)).bind fun m _ => ?_
  have hafter : ∀ a, DecodeAlike _ _ := fun a =>
    decodeAlike_rmImmAfter (recordOf_rmImmForm a (signOf op) (widthAt op 0)) s (twoBySw (signOf op) (widthAt op 0)) m pos
  dsimp only
  rw [show [m].getD 0 0 = m from rfl, regOf_bits, arithOfExt]
  split_ifs
  · exact hafter .add
  · exact hafter .sub
  · exact hafter .cmp
  · exact decodeAlike_error _

theorem recordOf_accImmForm (a : ArithOp) (w : Width) (imm : ImmField) :
    recordOf (accImmForm a w imm) = some (regImmRecord (arithMnemonic a) .fam7 (accumulator w) imm) := by
  cases a <;> rfl

theorem decodeAlike_accImm (a : ArithOp) (s : State) (op : Byte) (pos : Nat) :
    DecodeAlike (refAccImm s (arithMnemonic a) op pos (pos + 1)) (decodeAccImm a op (sourceFrom s (pos + 1))) := by
  simp only [refAccImm, refWidth_bit0, twoByWidth_eq]
  refine (readAlike_decodeImm s none _ false false (pos + 1)).bind fun imm _ => ?_
  have hlen : pos + 1 + immLength imm - pos = 1 + immLength imm := by omega
  exact decodeAlike_ok ((recordOf_accImmForm _ _ _).trans (by rw [hlen]; rfl)) _

/-- The mnemonic of a jump (42_jcc R94). -/
def jumpMnemonic : JumpOp → Mnemonic
  | .je => .je
  | .jl => .jl
  | .jle => .jle
  | .jb => .jb
  | .jbe => .jbe
  | .jp => .jp
  | .jo => .jo
  | .js => .js
  | .jne => .jne
  | .jnl => .jnl
  | .jnle => .jnle
  | .jnb => .jnb
  | .jnbe => .jnbe
  | .jnp => .jnp
  | .jno => .jno

theorem lookup_refJccTable : ∀ op : Byte, refJccTable.lookup op = (jumpOf op).map jumpMnemonic := by decide

theorem recordOf_jumpForm (j : JumpOp) (rel : Byte) : recordOf (jumpForm j rel) = some (jumpRecord (jumpMnemonic j) rel) := by
  cases j <;> rfl

theorem decodeAlike_jump (j : JumpOp) (s : State) (p : Nat) :
    DecodeAlike (refJcc s (jumpMnemonic j) p) (decodeJump j (sourceFrom s p)) :=
  (readAlike_take1 s none p).bind fun rel _ => decodeAlike_ok (recordOf_jumpForm j rel) _

/-! The classifier and the step -/

/-- The body that `Decode` goes on with for an opcode byte of each class (30_encoding R46, R49). -/
def refBody (s : State) (op : Byte) (pos : Nat) : OpClass → Except DecodeError Record
  | .fam1 => refRmReg s .mov .fam1 op pos (pos + 1)
  | .fam2 => refMovRmImm s op pos (pos + 1)
  | .fam3 => refMovRegImm s op pos (pos + 1)
  | .fam4 => refMovAcc s op (pos + 1)
  | .fam5 a => refRmReg s (arithMnemonic a) .fam5 op pos (pos + 1)
  | .fam6 => refRmImm s op pos (pos + 1)
  | .fam7 a => refAccImm s (arithMnemonic a) op pos (pos + 1)
  | .fam8 j => refJcc s (jumpMnemonic j) (pos + 1)
  | .unsupported => .error { fault := .unsupportedOpcode, ext := none }

/-- The pseudocode tests the opcode byte as the classifier does. -/
theorem refDecode_eq_refBody {s : State} {pos : Nat} (hlt : pos < s.len) :
    refDecode s pos = refBody s (byteAt s.src pos) pos (classify (byteAt s.src pos)) := by
  have htake : refTake s none 1 pos = .ok ([byteAt s.src pos], pos + 1) := refTake_ok s none hlt
  rw [refDecode, htake, except_ok_bind, classify]
  simp only [apply_ite (refBody s (byteAt s.src pos) pos)]
  rw [show [byteAt s.src pos].getD 0 0 = byteAt s.src pos from rfl, lookup_refJccTable]
  cases jumpOf (byteAt s.src pos) <;> rfl

theorem decodeAlike_body (s : State) (op : Byte) (pos : Nat) (tail : List Byte) (htail : tail = sourceFrom s (pos + 1)) :
    DecodeAlike (refBody s op pos (classify op)) (decode (op :: tail)) := by
  subst htail
  rw [decode]
  cases classify op with
  | fam1 => exact decodeAlike_rmReg (fun _ _ _ _ => rfl) s op pos
  | fam2 => exact decodeAlike_movRmImm s op pos
  | fam3 => exact decodeAlike_movRegImm s op pos
  | fam4 => exact decodeAlike_movAcc s op (pos + 1)
  | fam5 a => exact decodeAlike_rmReg (recordOf_rmRegForm a) s op pos
  | fam6 => exact decodeAlike_rmImm s op pos
  | fam7 a => exact decodeAlike_accImm a s op pos
  | fam8 j => exact decodeAlike_jump j s (pos + 1)
  | unsupported => exact decodeAlike_error _

/-- `Decode` (30_encoding R49) and the decoder on the rest of the source do the same. -/
theorem decodeAlike_decode {s : State} {pos : Nat} (hlt : pos < s.len) :
    DecodeAlike (refDecode s pos) (decode (sourceFrom s pos)) := by
  rw [refDecode_eq_refBody hlt, sourceFrom_of_lt hlt]
  exact decodeAlike_body s (byteAt s.src pos) pos _ rfl

/-- Settles O23: the decoder on the window answers as on the rest of the source, there it and the pseudocode do the same, and the
step emits the record or raises the fault. -/
theorem stepRefinesPseudocode : Obligations.StepRefinesPseudocode := by
  intro s hr hle
  by_cases hend : s.pos = s.len
  · rw [if_pos hend, step_at_end hr hend, cleanEnd]
  have hlt : s.pos < s.len := by omega
  rw [if_neg hend]
  cases hd : decode (window s s.pos) with
  | ok i rest =>
    obtain ⟨rest', hfull⟩ := decode_sourceFrom_of_ok hd
    rcases decodeAlike_decode hlt with ⟨i', rest'', r, hrecord, hy, hx⟩ | ⟨e, -, hx⟩
    · obtain ⟨rfl, -⟩ := Decoded.ok.inj (hfull.symm.trans hx)
      obtain ⟨r', hrecord', hexec⟩ := exec_recordOf i
      obtain rfl : r = r' := Option.some.inj (hrecord.symm.trans hrecord')
      rw [hy, step_of_decode_ok hr hlt hd, exec_of_running hr (hexec s), emitted]
    · rw [hfull] at hx
      cases hx
  | error e =>
    have hfull := decode_sourceFrom_of_error hlt hd
    rcases decodeAlike_decode hlt with ⟨i', rest'', r, -, -, hx⟩ | ⟨e', hy, hx⟩
    · rw [hfull] at hx
      cases hx
    · obtain rfl : e = e' := Decoded.error.inj (hfull.symm.trans hx)
      rw [hy, step_of_decode_error hr hlt hd, raiseFault, faultRecordOf]

end Sys2Proof.Machine
end

section
/-! The source as memory, and the host's side (20_memory, 70_reset_and_hazards). -/

namespace Sys2Proof.Machine

open Sys2Proof.Safety

/-! Reading the source -/

theorem memRead_inside {s : State} {addr n : Nat} (h : addr + n ≤ s.len) :
    memRead s addr n = some ((List.range n).map fun k => byteAt s.src (addr + k)) :=
  if_pos h

theorem memRead_outside {s : State} {addr n : Nat} (h : s.len < addr + n) : memRead s addr n = none := if_neg (by omega)

theorem memRead_congr {s t : State} (hsrc : t.src = s.src) (hlen : t.len = s.len) (addr n : Nat) :
    memRead t addr n = memRead s addr n := by
  rw [memRead, memRead, hsrc, hlen]

/-- Settles O38: the two cases of the definition, and a step keeps the source. -/
theorem memReadDefined : Obligations.MemReadDefined := by
  refine fun s addr n => ⟨fun h => ⟨_, memRead_inside h, by simp, fun k hk => ?_⟩, memRead_outside, fun t hstep => ?_⟩
  · rw [List.getElem?_map, List.getElem?_range hk]
    rfl
  · obtain ⟨hsrc, hlen, -⟩ := stepFrame s t hstep
    exact memRead_congr hsrc hlen addr n

/-! The canonical form -/

theorem sourceWf_iff (s : State) : sourceWf s = true ↔ Memory.wf s.src = true ∧ ∀ c ∈ s.src, c.1 < s.len := by
  simp [sourceWf]

theorem byteAt_cons_of_ne {x a : Nat} (h : a ≠ x) (b : Byte) (m : Memory) : byteAt ((x, b) :: m) a = byteAt m a := if_neg h

theorem byteAt_cons_self (x : Nat) (b : Byte) (m : Memory) : byteAt ((x, b) :: m) x = b := if_pos rfl

/-- In a canonical memory the offset of the first cell is the first that does not read as 0. -/
theorem head_le_of_byteAt_ne {x a : Nat} {b : Byte} {m : Memory} (h : ∀ c ∈ m, x < c.1) (ha : byteAt ((x, b) :: m) a ≠ 0) :
    x ≤ a := by
  by_contra hlt
  refine ha (byteAt_of_lt_all fun c hc => ?_)
  rcases List.mem_cons.mp hc with rfl | hc
  · exact Nat.lt_of_not_le hlt
  · exact (Nat.lt_of_not_le hlt).trans (h c hc)

/-- Two canonical memories that read the same everywhere are the same list of cells. -/
theorem memory_ext {m n : Memory} (hm : Memory.wf m = true) (hn : Memory.wf n = true) (h : ∀ a, byteAt m a = byteAt n a) :
    m = n := by
  induction m generalizing n with
  | nil =>
    cases n with
    | nil => rfl
    | cons c n =>
      obtain ⟨y, v⟩ := c
      have hy := h y
      rw [byteAt_cons_self] at hy
      exact absurd hy.symm ((Memory.wf_cons y v n).mp hn).1
  | cons c m ih =>
    obtain ⟨x, b⟩ := c
    obtain ⟨hb, hx, hmtail⟩ := (Memory.wf_cons x b m).mp hm
    cases n with
    | nil =>
      have hx' := h x
      rw [byteAt_cons_self] at hx'
      exact absurd hx' hb
    | cons c n =>
      obtain ⟨y, v⟩ := c
      obtain ⟨hv, hy, hntail⟩ := (Memory.wf_cons y v n).mp hn
      have hxy : x ≤ y := head_le_of_byteAt_ne hx (by rw [h y, byteAt_cons_self]; exact hv)
      have hyx : y ≤ x := head_le_of_byteAt_ne hy (by rw [← h x, byteAt_cons_self]; exact hb)
      obtain rfl : x = y := Nat.le_antisymm hxy hyx
      have hbv := h x
      rw [byteAt_cons_self, byteAt_cons_self] at hbv
      have htail : ∀ a, byteAt m a = byteAt n a := by
        intro a
        by_cases ha : a = x
        · rw [ha, byteAt_of_lt_all hx, byteAt_of_lt_all hy]
        · have := h a
          rwa [byteAt_cons_of_ne ha, byteAt_cons_of_ne ha] at this
      obtain rfl : m = n := ih hmtail hntail htail
      rw [hbv]

/-- Settles O39: at and beyond `LEN` neither source lists a byte, so they read the same everywhere. -/
theorem canonicalSourcesEqual : Obligations.CanonicalSourcesEqual := by
  intro s t hs ht hlen h
  obtain ⟨hwfs, hins⟩ := (sourceWf_iff s).mp hs
  obtain ⟨hwft, hint⟩ := (sourceWf_iff t).mp ht
  refine memory_ext hwfs hwft fun a => ?_
  rcases Nat.lt_or_ge a s.len with ha | ha
  · exact h a ha
  · rw [byteAt_of_all_lt fun c hc => (hins c hc).trans_le ha, byteAt_of_all_lt fun c hc => (hint c hc).trans_le (hlen ▸ ha)]

/-! The host -/

theorem sourceWf_loadBytes (s : State) (bytes : List Byte) :
    sourceWf { s with src := loadBytes 0 bytes, len := bytes.length } = true := by
  refine (sourceWf_iff _).mpr ⟨loadBytes_wf 0 bytes, fun c hc => ?_⟩
  simpa using (mem_loadBytes hc).2

/-- Settles O40: what is placed is `loadBytes`, canonical and readable as placed. -/
theorem loadPlacesSource : Obligations.LoadPlacesSource := by
  refine fun bytes s => ⟨fun hheld => by simp [hostAct, hheld], fun hheld => ?_⟩
  refine ⟨loadBytes 0 bytes, by simp [hostAct, hheld], sourceWf_loadBytes s bytes, fun k hk => ?_⟩
  have hplaced := byteAt_loadBytes 0 bytes k hk
  rwa [Nat.zero_add] at hplaced

/-- Settles O41: the release gives the reset values beside the source that stood. -/
theorem resetValues : Obligations.ResetValues :=
  ⟨rfl, rfl, rfl, rfl, rfl, rfl, rfl, rfl, rfl, fun s hheld => ⟨resetKeepingSource s, if_pos hheld, rfl, fun hsrc =>
    ⟨inv_resetKeepingSource hsrc, faithful_resetKeepingSource s⟩⟩⟩

/-- Settles O42: what the host reads is `hostView` out of reset, with the fault record by `readAtEnd`. -/
theorem hostPortRules : Obligations.HostPortRules := by
  refine ⟨fun s => ⟨_, rfl, rfl, rfl, rfl, rfl⟩, fun s hheld => by simp [hostAct, hheld], fun s hheld => ?_⟩
  refine ⟨_, if_neg (by simp [hheld]), rfl, rfl, rfl, rfl, fun hrun => ?_, fun hrun => ?_⟩
  · simp [readAtEnd_eq, hrun]
  · simp [readAtEnd_eq, hrun]

end Sys2Proof.Machine
end

section
/-! The text of a record (30_encoding R70 to R77). -/

namespace Sys2Proof.Machine

open Sys2Proof.Safety

/-! Operands -/

theorem baseExpression_range : ((List.range 8).map fun k => baseExpression (BitVec.ofNat 3 k)) = baseTable := by decide

/-- Base expression 7 repeats base expression 0 (90_conflicts C1). -/
theorem baseExpression_seven : baseExpression 7 = baseExpression 0 := rfl

/-- Settles O44: the indices in order read off the table, whose entries 7 and 0 are one text. -/
theorem baseExpressions : Obligations.BaseExpressions := by
  refine ⟨baseExpression_range, fun d => ⟨?_, fun h => absurd (Operand.mem.inj h).1 (by decide)⟩⟩
  rw [renderOperand_mem, renderOperand_mem, baseExpression_seven]

theorem renderOperand_imm (v : Word) (n : ImmBytes) (explicit sx : Bool) :
    renderOperand (.imm v n explicit sx) = sizeTag n explicit ++ dec v.toNat := rfl

/-- Settles O46: the clauses of `RenderOp` (30_encoding R71 to R74). -/
theorem operandText : Obligations.OperandText := by
  refine ⟨fun rm => ?_, fun rm v => ?_, fun rm v => ?_, fun addr => rfl, fun v n sx => ⟨?_, rfl, rfl⟩⟩
  · rw [renderOperand_mem, renderDisp, String.append_empty]
  · rw [renderOperand_mem, renderDisp, ← String.append_assoc]
  · rw [renderOperand_mem, renderDisp, ← String.append_assoc]
  · rw [renderOperand_imm, show sizeTag n false = "" from rfl, String.empty_append]

/-! Numerals -/

/-- `ds` is the decimal numeral of `n`: at least one digit, each below 10, their value `n`, no leading zero but for 0 itself. -/
def IsNumeral (n : Nat) (ds : List Nat) : Prop :=
  ds ≠ [] ∧ (∀ d ∈ ds, d < 10) ∧ ds.foldl (fun acc d => 10 * acc + d) 0 = n ∧ (ds.head? = some 0 → n = 0 ∧ ds = [0])

theorem isNumeral_digit {n : Nat} (h : n < 10) : IsNumeral n [n] := by
  refine ⟨by simp, by simpa using h, by simp, fun hzero => ?_⟩
  obtain rfl : n = 0 := Option.some.inj hzero
  exact ⟨rfl, rfl⟩

/-- A numeral of a positive number goes on with any digit. -/
theorem isNumeral_append {n : Nat} {ds : List Nat} (h : IsNumeral n ds) (hn : 0 < n) {d : Nat} (hd : d < 10) :
    IsNumeral (10 * n + d) (ds ++ [d]) := by
  obtain ⟨hne, hdigits, hvalue, hhead⟩ := h
  refine ⟨by simp, fun k hk => ?_, by simp [hvalue], fun hzero => ?_⟩
  · rcases List.mem_append.mp hk with hk | hk
    · exact hdigits k hk
    · exact (List.mem_singleton.mp hk) ▸ hd
  · rw [List.head?_append_of_ne_nil _ hne] at hzero
    obtain ⟨hzero, -⟩ := hhead hzero
    omega

theorem digitChar_of_lt {n : Nat} (h : n < 10) : digitChar n = Char.ofNat (48 + n) := by rw [digitChar, Nat.mod_eq_of_lt h]

theorem digitChar_mod (n : Nat) : digitChar n = Char.ofNat (48 + n % 10) := rfl

/-- With enough fuel the digits written are the numeral of `n`, before those already there. -/
theorem decDigits_numeral {fuel n : Nat} (h : n < fuel) (written : List Char) :
    ∃ ds, IsNumeral n ds ∧ decDigits fuel n written = ds.map (fun d => Char.ofNat (48 + d)) ++ written := by
  induction fuel generalizing n written with
  | zero => omega
  | succ fuel ih =>
    rw [decDigits]
    split
    · next hlt => exact ⟨[n], isNumeral_digit hlt, by rw [digitChar_of_lt hlt]; rfl⟩
    · next hge =>
      obtain ⟨ds, hds, hwritten⟩ := ih (n := n / 10) (by omega) (digitChar n :: written)
      refine ⟨ds ++ [n % 10], ?_, by rw [hwritten, digitChar_mod]; simp⟩
      have hnumeral := isNumeral_append hds (by omega) (Nat.mod_lt n (by decide : 0 < 10))
      rwa [Nat.div_add_mod] at hnumeral

/-- Settles O48: the fuel `n + 1` is enough. -/
theorem decimalNumerals : Obligations.DecimalNumerals := by
  intro n
  obtain ⟨ds, ⟨hne, hdigits, hvalue, hhead⟩, hwritten⟩ := decDigits_numeral (Nat.lt_succ_self n) []
  exact ⟨ds, hne, hdigits, by rw [dec, hwritten, List.append_nil], hvalue, hhead⟩

/-! Lines -/

theorem render_two (mn : Mnemonic) (a b : Operand) (f : Family) (n : Nat) :
    render { mn := mn, ops := [a, b], fam := f, len := n } =
      mnemonicText mn ++ " " ++ renderOperand a ++ ", " ++ renderOperand b := by
  simp only [render, renderOperands, String.append_assoc]

theorem render_one (mn : Mnemonic) (a : Operand) (f : Family) (n : Nat) :
    render { mn := mn, ops := [a], fam := f, len := n } = mnemonicText mn ++ " " ++ renderOperand a := rfl

/-- Settles O49: the two shapes of a line, and the decoder's own examples. -/
theorem lineText : Obligations.LineText :=
  ⟨rfl, render_two, render_one, by decide, by decide, by decide, by decide⟩

theorem lines_eq (s : State) : lines s = header :: s.out.map render := rfl

/-- The lines of a state whose `out` goes on are a leading part of its lines. -/
theorem lines_of_out_append {s t : State} {more : List Record} (h : t.out = s.out ++ more) : lines s <+: lines t :=
  ⟨more.map render, by rw [lines_eq, lines_eq, h, List.map_append, List.cons_append]⟩

/-- Settles O50: a step leaves `out` or appends one record. -/
theorem lineStream : Obligations.LineStream := by
  refine ⟨rfl, lines_eq, fun s t hstep => ?_⟩
  obtain ⟨-, -, -, -, ⟨hout, -⟩ | ⟨r, hout, -⟩, -⟩ := stepFrame s t hstep
  · exact lines_of_out_append (hout.trans (List.append_nil _).symm)
  · exact lines_of_out_append hout

end Sys2Proof.Machine
end
